-- ==== Sys2Proof/Word.lean ====
section
/-! DEFINITION. The word type of the decimalsense CORE (00_scope.md R1, R9; 30_encoding.md R56). -/

namespace Sys2Proof

/-- The 64-bit word that every operation reads and writes, bit 63 most significant (R9, R43). -/
abbrev Word := BitVec 64

/-- A byte of a host's storage. The block itself has no byte (20_memory.md R44). -/
abbrev Byte := BitVec 8

end Sys2Proof
end

