-- ==== Sys2Proof/Syntax.lean ====
section
/-! DEFINITION. The operations of the block, one constructor per row of spec/opcode_table.json (30_encoding.md R70, R71),
and the names of its input ports (10_state.md R23). -/

namespace Sys2Proof

/-- The operation that the `op` port selects (30_encoding.md R70). It carries no operand: every operand arrives on a port
of its own and there is no immediate (R72, R73). The rows of R71 that cover several op values carry the value. -/
inductive Instr where
  /-- 0x0, 40_bit_codec.md R101 -/
  | pack
  /-- 0x1, 40_bit_codec.md R102 -/
  | unpack
  /-- 0x2, 41_decoder.md R124 -/
  | decode
  /-- 0x3, 42_digit_shifter.md R141 -/
  | shift
  /-- 0x4, 43_adder_subtractor.md R150 -/
  | add
  /-- 0x5, 43_adder_subtractor.md R163 -/
  | sub
  /-- 0x6, 43_adder_subtractor.md R162 -/
  | neg
  /-- 0x7, 44_multiplier.md R180 -/
  | mul
  /-- 0x8, 45_divider.md R195 -/
  | div
  /-- 0x9, reserved, 30_encoding.md R71 -/
  | reserved9
  /-- 0xA and 0xB (match 0b101x), reserved, R71 -/
  | reservedAB (op : BitVec 4)
  /-- 0xC to 0xF (match 0b11xx), reserved, R71 -/
  | reservedCF (op : BitVec 4)
deriving DecidableEq, Repr

/-- The input ports (10_state.md R23). -/
inductive InPort where
  | op
  | a
  | b
  | pSign
  | pExp
  | pSig
  | n
deriving DecidableEq, Repr

end Sys2Proof
end

