-- ==== Sys2Proof/WellFormed.lean ====
section
/-! DEFINITION. Which terms of Instr stand for an op value: a reserved row's op value lies in that row (30_encoding.md R71). -/

namespace Sys2Proof

/-- A reserved row's op value matches the row's pattern: 0b101x or 0b11xx (30_encoding.md R71). -/
def Instr.wellFormed : Instr → Bool
  | .reservedAB op => op &&& 0xE == 0xA
  | .reservedCF op => op &&& 0xC == 0xC
  | .pack | .unpack | .decode | .shift | .add | .sub | .neg | .mul | .div | .reserved9 => true

end Sys2Proof
end

