-- ==== Sys2Proof/Decode.lean ====
section
/-! DEFINITION. The command decoder: a decoder tells the operation from `op` alone (30_encoding.md R70, R71, R74),
and the encoder beside it. -/

namespace Sys2Proof

/-- The op map (30_encoding.md R70, R71). Every one of the sixteen op values selects something. -/
def decodeOp (op : BitVec 4) : Instr :=
  match op.toNat with
  | 0x0 => .pack
  | 0x1 => .unpack
  | 0x2 => .decode
  | 0x3 => .shift
  | 0x4 => .add
  | 0x5 => .sub
  | 0x6 => .neg
  | 0x7 => .mul
  | 0x8 => .div
  | 0x9 => .reserved9
  | 0xA | 0xB => .reservedAB op
  | _ => .reservedCF op

/-- Why a number is no command: the op port has four bits, so no value of 16 or more can be presented (10_state.md R23). -/
inductive DecodeError where
  | opTooWide (value : Nat)
deriving DecidableEq, Repr

/-- The operation that a number presented as an op value selects, or the reason there is none (entry 5). -/
def decodeValue (v : Nat) : Except DecodeError Instr :=
  if v < 16 then .ok (decodeOp (BitVec.ofNat 4 v)) else .error (.opTooWide v)

/-- The host's view of the decoder, on the table's numbering of the bits. The table has bits 3 to 0 only, so the value
is the op value whatever the number of bits is. -/
def decodeTableWord (_nbits w : Nat) : Option Instr :=
  match decodeValue w with
  | .ok i => some i
  | .error _ => none

/-- The op value of an operation (30_encoding.md R70, R71). -/
def encode : Instr → BitVec 4
  | .pack => 0x0
  | .unpack => 0x1
  | .decode => 0x2
  | .shift => 0x3
  | .add => 0x4
  | .sub => 0x5
  | .neg => 0x6
  | .mul => 0x7
  | .div => 0x8
  | .reserved9 => 0x9
  | .reservedAB op => op
  | .reservedCF op => op

/-- A row of spec/opcode_table.json: the op values whose bits under `mask` are `pattern`. -/
structure OpRow where
  mnemonic : String
  pattern : BitVec 4
  mask : BitVec 4
deriving DecidableEq, Repr

/-- The rows of spec/opcode_table.json, in the table's order. -/
def opRows : List OpRow :=
  [⟨"PACK", 0x0, 0xF⟩, ⟨"UNPACK", 0x1, 0xF⟩, ⟨"DECODE", 0x2, 0xF⟩, ⟨"SHIFT", 0x3, 0xF⟩,
   ⟨"ADD", 0x4, 0xF⟩, ⟨"SUB", 0x5, 0xF⟩, ⟨"NEG", 0x6, 0xF⟩, ⟨"MUL", 0x7, 0xF⟩, ⟨"DIV", 0x8, 0xF⟩,
   ⟨"RESERVED", 0x9, 0xF⟩, ⟨"RESERVED", 0xA, 0xE⟩, ⟨"RESERVED", 0xC, 0xC⟩]

/-- The row covers the op value. -/
def OpRow.covers (r : OpRow) (op : BitVec 4) : Bool := op &&& r.mask == r.pattern

/-- The row of an operation, by its mnemonic and place in the table. -/
def rowOf : Instr → OpRow
  | .pack => ⟨"PACK", 0x0, 0xF⟩
  | .unpack => ⟨"UNPACK", 0x1, 0xF⟩
  | .decode => ⟨"DECODE", 0x2, 0xF⟩
  | .shift => ⟨"SHIFT", 0x3, 0xF⟩
  | .add => ⟨"ADD", 0x4, 0xF⟩
  | .sub => ⟨"SUB", 0x5, 0xF⟩
  | .neg => ⟨"NEG", 0x6, 0xF⟩
  | .mul => ⟨"MUL", 0x7, 0xF⟩
  | .div => ⟨"DIV", 0x8, 0xF⟩
  | .reserved9 => ⟨"RESERVED", 0x9, 0xF⟩
  | .reservedAB _ => ⟨"RESERVED", 0xA, 0xE⟩
  | .reservedCF _ => ⟨"RESERVED", 0xC, 0xC⟩

end Sys2Proof
end

