-- ==== Sys2Proof/Config.lean ====
section
/-! DEFINITION. The build parameters of an instance (00_scope.md R6), fixed when it is built (10_state.md R22). -/

namespace Sys2Proof

/-- SPECIALS: the special-number encoding (00_scope.md R6). -/
inductive Specials where
  | standard
  | extended
deriving DecidableEq, Repr

/-- FIELD_SPLIT: CLASSIC is the only admitted value (00_scope.md R6, 70_reset_and_hazards.md R253). -/
inductive FieldSplit where
  | classic
  | boundaryShared
deriving DecidableEq, Repr

/-- HOST_BYTE_ORDER, an OPEN parameter of the host and not of the block (20_memory.md R44, entry 9). -/
inductive ByteOrder where
  | littleEndian
  | bigEndian
deriving DecidableEq, Repr

/-- The parameter tuple of one instance (00_scope.md R6). R253 says which tuples are admitted. LATENCY and
HOST_BYTE_ORDER are no parameters of the block's function and are arguments where they matter (entries 8, 9). -/
structure Params where
  /-- WORD_W -/
  wordW : Nat
  /-- EXP_W -/
  expW : Nat
  /-- SIG_W -/
  sigW : Nat
  /-- BIAS -/
  bias : Nat
  /-- SUBNORMALS, true when ON -/
  subnormals : Bool
  /-- SPECIALS -/
  specials : Specials
  /-- INF_SIG_EXT, read only when SPECIALS = EXTENDED -/
  infSigExt : Nat
  /-- FIELD_SPLIT -/
  fieldSplit : FieldSplit
  /-- WIDE_W, the width of the multiply and divide intermediate -/
  wideW : Nat
deriving DecidableEq, Repr

/-- Why a parameter tuple is no instance of the spec: one name per condition of 70_reset_and_hazards.md R253. -/
inductive InstanceFlaw where
  | wordWidth
  | exponentWidth
  | significandWidth
  | biasValue
  | fieldSplitShared
  | infinityField
  | wideIntermediate
deriving DecidableEq, Repr

/-- The reference configuration (00_scope.md R2): SUBNORMALS = ON, SPECIALS = STANDARD, FIELD_SPLIT = CLASSIC,
INF_SIG_EXT at its default. DESIGN CHOICE (entry 4): WIDE_W = 128, of which R6 gives a lower bound only. -/
def Params.reference : Params where
  wordW := 64
  expW := 10
  sigW := 53
  bias := 512
  subnormals := true
  specials := .standard
  infSigExt := 9000000000000000
  fieldSplit := .classic
  wideW := 128

end Sys2Proof
end

