-- ==== Sys2Proof/Machine/Instance.lean ====
section
/-! DEFINITION. The constants derived from the build parameters (00_scope.md R7) and the test that admits an instance
(70_reset_and_hazards.md R253). -/

namespace Sys2Proof.Machine

/-- BIAS, the only admitted exponent bias (00_scope.md R6, R253). -/
abbrev BIAS : Nat := 512

/-- N15 = 10^15, the normal-range offset (R7). -/
abbrev N15 : Nat := 1000000000000000

/-- N16 = 10^16 (R7). -/
abbrev N16 : Nat := 10000000000000000

/-- E_ALL1, the all-ones exponent field (R7). -/
abbrev E_ALL1 : Nat := 1023

/-- F_MAX = 2^53 - 1, the largest significand field value (R7). -/
abbrev F_MAX : Nat := 9007199254740991

/-- STORED_MAX = 9 x 10^15 - 1, the largest stored field of a valid normal (R7). -/
abbrev STORED_MAX : Nat := 8999999999999999

/-- E_MAX, the largest biased exponent of a finite normal (R7). -/
def eMax (p : Params) : Nat :=
  match p.specials with
  | .standard => 1022
  | .extended => 1023

/-- The significand field of infinity (00_scope.md R7, 30_encoding.md R61). -/
def infField (p : Params) : Nat :=
  match p.specials with
  | .standard => 0
  | .extended => p.infSigExt

/-- INF_MAG, the magnitude bits of infinity (00_scope.md R7). -/
def infMag (p : Params) : Nat := E_ALL1 * 2 ^ 53 + infField p

/-- The first condition of 70_reset_and_hazards.md R253 that the tuple breaks, in the rule's order; `none` when the
instance is admitted. WIDE_W's bound is R253's 108 (entry 7). -/
def instanceFlaw (p : Params) : Option InstanceFlaw :=
  if p.wordW ≠ 64 then some .wordWidth
  else if p.expW ≠ 10 then some .exponentWidth
  else if p.sigW ≠ 53 then some .significandWidth
  else if p.bias ≠ BIAS then some .biasValue
  else if p.fieldSplit ≠ .classic then some .fieldSplitShared
  else if p.specials = .extended ∧ ¬ (9000000000000000 ≤ p.infSigExt ∧ p.infSigExt ≤ 2 ^ 53 - 2) then some .infinityField
  else if p.wideW < 108 then some .wideIntermediate
  else none

/-- The instance is admitted (70_reset_and_hazards.md R253). -/
def admitted (p : Params) : Bool := instanceFlaw p == none

end Sys2Proof.Machine
end

