-- ==== Sys2Proof/Machine/State.lean ====
section
/-! DEFINITION. State: the input ports as the host presents them, the output ports as the block drives them, and
the build parameters of the instance. The block holds no architectural state (10_state.md R21), so there is nothing else. -/

namespace Sys2Proof.Machine

/-- One presentation of the input ports (10_state.md R23, R25). A port is `none` while it is undriven or unknown
(70_reset_and_hazards.md R259). -/
structure Inputs where
  op : Option (BitVec 4)
  a : Option Word
  b : Option Word
  pSign : Option (BitVec 1)
  pExp : Option (BitVec 10)
  pSig : Option (BitVec 54)
  n : Option (BitVec 8)
deriving DecidableEq, Repr

/-- The output ports (10_state.md R24). -/
structure Outputs where
  y : Word
  uSign : BitVec 1
  uExp : BitVec 10
  uSig : BitVec 54
  uClass : BitVec 3
deriving DecidableEq, Repr

/-- The machine: the instance's build parameters (00_scope.md R6), the inputs of the current transaction and the values on the
output ports. `inp` is set by the host, `params` by nobody (10_state.md R22; entries 2, 4). `out` follows the inputs whenever
they are presented and at every step (70_reset_and_hazards.md R250); it is `none` while no rule specifies the outputs, that
is, where the transaction on the ports is one that a model refuses (R253, R259; entry 1). -/
structure State where
  params : Params
  inp : Inputs
  out : Option Outputs
deriving DecidableEq, Repr

/-- The one reason the model ends in a fault. -/
inductive Fault where
  /-- A host reads 5, 6 or 7 on u_class (93_implementation_defined.md I14: "a model that sees one has a bug, treat as
  fault"). Raised by `readClass` in Machine/Script.lean, never by `step`. Safe: the block never drives one (R123). -/
  | reservedClassCode (code : BitVec 3)
deriving DecidableEq, Repr

/-- The reasons the model refuses. -/
inductive Refusal where
  /-- Raised by an arm of `exec` whose instruction has no meaning yet; there is none. Safe. -/
  | notModelled (mnemonic : String)
  /-- The parameter tuple is no instance of the spec. Raised by `whenAdmitted`, so by `step` and every meaning.
  70_reset_and_hazards.md R253: "A model refuses any other instance by name." Safe. -/
  | illegalInstance (flaw : InstanceFlaw)
  /-- A port that the transaction reads is undriven. Raised by `withPort`. 70_reset_and_hazards.md R259: "A model refuses
  such a transaction, naming the port." Safe. -/
  | undriven (port : InPort)
  /-- A script's MAKE lies outside its domain. Raised by the script layer, never by `step`. 30_encoding.md R77. Safe. -/
  | makeOutsideDomain
deriving DecidableEq, Repr

/-- Every port driven with 0: what the model presents at reset. DESIGN CHOICE (entry 3). -/
def Inputs.zeros : Inputs where
  op := some 0
  a := some 0
  b := some 0
  pSign := some 0
  pExp := some 0
  pSig := some 0
  n := some 0

/-- Every output port at 0 (10_state.md R26). -/
def Outputs.zeros : Outputs where
  y := 0
  uSign := 0
  uExp := 0
  uSig := 0
  uClass := 0

/-- The machine right after reset. Reset sets nothing (10_state.md R32), so this is the reference configuration
(00_scope.md R2) with every input port at 0 and the outputs that PACK gives for those inputs (70_reset_and_hazards.md
R250). DESIGN CHOICE (entries 3, 4). -/
def State.reset : State where
  params := Params.reference
  inp := Inputs.zeros
  out := some Outputs.zeros

end Sys2Proof.Machine
end

