-- ==== Sys2Proof/Machine/Operands.lean ====
section
/-! DEFINITION. Operands: reading the input ports (30_encoding.md R72, R73), the fields of a word (R56) and the logical
triple DEC (41_decoder.md R120). -/

namespace Sys2Proof.Machine

/-- Go on with the value on a port, or refuse the transaction naming the port (70_reset_and_hazards.md R259). -/
def withPort {α : Type} (port : InPort) (value : Option α) (k : α → Host.Outcome State Fault Refusal) :
    Host.Outcome State Fault Refusal :=
  match value with
  | none => .refused (.undriven port)
  | some x => k x

/-- Go on when the instance is admitted, or refuse it by name (70_reset_and_hazards.md R253). -/
def whenAdmitted (s : State) (k : Host.Outcome State Fault Refusal) : Host.Outcome State Fault Refusal :=
  match instanceFlaw s.params with
  | some flaw => .refused (.illegalInstance flaw)
  | none => k

/-- The command of the transaction: the operation that the op port names (10_state.md R28, 30_encoding.md R74). -/
def withCommand (s : State) (k : Instr → Host.Outcome State Fault Refusal) : Host.Outcome State Fault Refusal :=
  whenAdmitted s (withPort .op s.inp.op fun op => k (decodeOp op))

/-- Whether a port is driven. -/
def Inputs.driven (inp : Inputs) : InPort → Bool
  | .op => inp.op.isSome
  | .a => inp.a.isSome
  | .b => inp.b.isSome
  | .pSign => inp.pSign.isSome
  | .pExp => inp.pExp.isSome
  | .pSig => inp.pSig.isSome
  | .n => inp.n.isSome

/-- Whether two presentations carry the same on a port. -/
def Inputs.same (x y : Inputs) : InPort → Bool
  | .op => x.op == y.op
  | .a => x.a == y.a
  | .b => x.b == y.b
  | .pSign => x.pSign == y.pSign
  | .pExp => x.pExp == y.pExp
  | .pSig => x.pSig == y.pSig
  | .n => x.n == y.n

/-- The operand ports an operation reads (30_encoding.md R72). -/
def operandPorts : Instr → List InPort
  | .pack => [.pSign, .pExp, .pSig]
  | .unpack | .decode | .neg => [.a]
  | .shift => [.a, .n]
  | .add | .sub | .mul | .div => [.a, .b]
  | .reserved9 | .reservedAB _ | .reservedCF _ => []

/-- The sign bit w[63] (30_encoding.md R56). -/
def signOf (w : Word) : Bool := w.getLsbD 63

/-- The exponent field w[62:53], the biased exponent E (R56). -/
def expField (w : Word) : BitVec 10 := w.extractLsb' 53 10

/-- The significand field w[52:0], the stored significand F (R56). -/
def sigField (w : Word) : BitVec 53 := w.extractLsb' 0 53

/-- The magnitude bits m = w[62:0] (R56). -/
def magnitude (w : Word) : BitVec 63 := w.extractLsb' 0 63

/-- A logical triple: sign, biased exponent E, and significand S with its leading digit restored (00_scope.md R12). -/
structure Triple where
  sign : Bool
  E : Nat
  S : Nat
deriving DecidableEq, Repr

/-- DEC (41_decoder.md R120), on any word and with no check. -/
def dec (w : Word) : Triple where
  sign := signOf w
  E := (expField w).toNat
  S := if (expField w).toNat = 0 then (sigField w).toNat else (sigField w).toNat + N15

end Sys2Proof.Machine
end

