-- ==== Sys2Proof/Machine/Flags.lean ====
section
/-! DEFINITION. The block has no status flag (10_state.md R29). This file holds the one status-like value that it drives:
the class of a word on u_class (41_decoder.md R121, R123), which R29 says is a result and not a flag. -/

namespace Sys2Proof.Machine

/-- The classes of a word (41_decoder.md R121). -/
inductive WordClass where
  | zero
  | subnormal
  | normal
  | inf
  | nan
deriving DecidableEq, Repr

/-- CLASS (41_decoder.md R121), the tests in the rule's order. It depends on SPECIALS through INF_MAG (R122). -/
def classify (p : Params) (w : Word) : WordClass :=
  if (magnitude w).toNat = infMag p then .inf
  else if (magnitude w).toNat > infMag p then .nan
  else if (expField w).toNat = 0 then (if (sigField w).toNat = 0 then .zero else .subnormal)
  else if (sigField w).toNat > STORED_MAX then .nan
  else .normal

/-- CODE (41_decoder.md R123). -/
def WordClass.code : WordClass → BitVec 3
  | .zero => 0
  | .subnormal => 1
  | .normal => 2
  | .inf => 3
  | .nan => 4

/-- The class of a code; codes 5, 6 and 7 are none (41_decoder.md R123). -/
def classOfCode (c : BitVec 3) : Option WordClass :=
  match c.toNat with
  | 0 => some .zero
  | 1 => some .subnormal
  | 2 => some .normal
  | 3 => some .inf
  | 4 => some .nan
  | _ => none

/-- A finite word: class ZERO, SUBNORMAL or NORMAL (30_encoding.md R57). -/
def finite (p : Params) (w : Word) : Bool :=
  match classify p w with
  | .zero | .subnormal | .normal => true
  | .inf | .nan => false

end Sys2Proof.Machine
end

