-- ==== Sys2Proof/Machine/Ops.lean ====
section
/-! DEFINITION. The operations that the meanings share: field placement, the helper words, the digit shift, carry-out and
renormalization, PACK_RESULT, and driving the output ports. The block raises no exception and returns from none
(60_exceptions.md R215, R223, R224), so there is no operation that takes one. -/

namespace Sys2Proof.Machine

/-- PACK_FIELDS (40_bit_codec.md R100): the fields side by side, most significant first. -/
def packFields (s : Bool) (E F : Nat) : Word := BitVec.ofBool s ++ BitVec.ofNat 10 E ++ BitVec.ofNat 53 F

/-- ZERO(s) (30_encoding.md R64). -/
def zeroWord (s : Bool) : Word := BitVec.ofBool s ++ 0#63

/-- INF(s) (30_encoding.md R61, R64). -/
def infWord (p : Params) (s : Bool) : Word := BitVec.ofBool s ++ BitVec.ofNat 63 (infMag p)

/-- QNAN, the canonical NaN (30_encoding.md R63, R64). -/
def qnan (p : Params) : Word := BitVec.ofBool false ++ BitVec.ofNat 63 (infMag p + 1)

/-- The sign flip of NEG (43_adder_subtractor.md R162). -/
def flipSign (w : Word) : Word := w ^^^ 0x8000000000000000#64

/-- SHIFT10 (42_digit_shifter.md R140): v shifted by k decimal digits in a 64-bit working width. -/
def shift10 (v : Nat) (k : Int) : Nat :=
  if v = 0 then 0
  else if k < 0 then (if -k > 15 then 0 else v / 10 ^ (-k).toNat)
  else (v * 10 ^ k.toNat) % 2 ^ 64

/-- A result significand with its biased exponent, before it is encoded. -/
structure Scaled where
  expn : Nat
  R : Nat
deriving DecidableEq, Repr

/-- One carry-out step: a result of 17 digits loses its last digit (43_adder_subtractor.md R158, 44_multiplier.md R184). -/
def carryOut (x : Scaled) : Scaled := if x.R > N16 - 1 then ⟨x.expn + 1, x.R / 10⟩ else x

/-- The upward loop `while R < N15 and expn > 0` (43_adder_subtractor.md R159, 44_multiplier.md R184, 45_divider.md R200). R159
also gives a closed form, which contradicts this loop; the model follows the loop (DESIGN CHOICE, entry 18). -/
def renormUp : Nat → Nat → Scaled
  | 0, R => ⟨0, R⟩
  | expn + 1, R => if R < N15 then renormUp expn (R * 10) else ⟨expn + 1, R⟩

/-- PACK_RESULT (40_bit_codec.md R104): overflow, exact zero, flush, the subnormal gap, subnormal or normal. -/
def packResult (p : Params) (s : Bool) (x : Scaled) : Word :=
  if x.expn > eMax p then infWord p s
  else if x.expn = 0 then
    (if x.R = 0 then zeroWord s
     else if p.subnormals = false then zeroWord s
     else packFields s 0 (min x.R F_MAX))
  else packFields s x.expn (x.R - N15)

/-- Carry-out, upward renormalization and encoding: the last steps of ADD (43_adder_subtractor.md R158 to R160) and of MUL
(44_multiplier.md R184, R185). -/
def finishResult (p : Params) (s : Bool) (x : Scaled) : Word :=
  packResult p s (renormUp (carryOut x).expn (carryOut x).R)

/-- The outputs of an operation that drives y alone; the rest is 0 (10_state.md R26). -/
def onY (y : Word) : Outputs := { Outputs.zeros with y := y }

/-- The outputs of UNPACK and DECODE; y is 0 (10_state.md R26). -/
def onFields (sign : BitVec 1) (exp : BitVec 10) (sig : BitVec 54) (cls : BitVec 3) : Outputs :=
  { Outputs.zeros with uSign := sign, uExp := exp, uSig := sig, uClass := cls }

/-- Complete the transaction: every output port takes its value, and nothing else changes (10_state.md R25, R26; 20_memory.md
R46, R47). -/
def drive (s : State) (o : Outputs) : Host.Outcome State Fault Refusal := .next { s with out := some o }

/-- A transaction that reads port a. -/
def onA (f : Word → Outputs) (s : State) : Host.Outcome State Fault Refusal :=
  whenAdmitted s (withPort .a s.inp.a fun a => drive s (f a))

/-- A transaction that reads ports a and b and drives y. -/
def onAB (f : Word → Word → Word) (s : State) : Host.Outcome State Fault Refusal :=
  whenAdmitted s (withPort .a s.inp.a fun a => withPort .b s.inp.b fun b => drive s (onY (f a b)))

/-- The transaction of a reserved op value: y is QNAN and no operand port is read (30_encoding.md R71, entry 6). -/
def reservedTransaction (s : State) : Host.Outcome State Fault Refusal :=
  whenAdmitted s (drive s (onY (qnan s.params)))

/-- The state a step ends in, when it does not stop. -/
def nextState (o : Host.Outcome State Fault Refusal) : Option State :=
  match o with
  | .next t => some t
  | .fault _ => none
  | .refused _ => none

end Sys2Proof.Machine
end

