-- ==== Sys2Proof/Machine/Adder.lean ====
section
/-! DEFINITION. decimal_adder_subtractor: ADD, SUB and NEG (43_adder_subtractor.md R150 to R163). -/

namespace Sys2Proof.Machine

/-- A signed sum or difference before carry-out. -/
structure SignedScaled where
  sign : Bool
  mag : Scaled
deriving DecidableEq, Repr

/-- Step 3, equal exponents (43_adder_subtractor.md R153). -/
def addEqual (x y : Triple) : SignedScaled :=
  if x.sign = y.sign then ⟨x.sign, x.E, x.S + y.S⟩
  else
    ⟨if x.S > y.S then x.sign else if y.S > x.S then y.sign else false,
     x.E, ((x.S : Int) - (y.S : Int)).natAbs⟩

/-- Steps 6 and 7: align the small significand M over a gap of d digits and combine (43_adder_subtractor.md R156, R157).
The difference is L - M2 with L > M2 (R157), so it loses nothing in Nat. -/
def alignCombine (sL sM : Bool) (L M expn d : Nat) : SignedScaled :=
  if sL = sM then ⟨sL, expn, L + shift10 M (-(d : Int))⟩ else ⟨sL, expn, L - shift10 M (-(d : Int))⟩

/-- Steps 4 to 7, unequal exponents, `big` at the larger one: the cancellation guard, then alignment
(43_adder_subtractor.md R154 to R157). -/
def addUnequal (big small : Triple) : SignedScaled :=
  if big.sign ≠ small.sign ∧ big.S < 2 * N15 then
    alignCombine big.sign small.sign (big.S * 10) small.S (big.E - 1) (big.E - small.E - 1)
  else alignCombine big.sign small.sign big.S small.S big.E (big.E - small.E)

/-- Steps 3 to 7 of ADD (43_adder_subtractor.md R150). -/
def addTriples (x y : Triple) : SignedScaled :=
  if x.E = y.E then addEqual x y else if x.E > y.E then addUnequal x y else addUnequal y x

/-- Steps 2 to 10 of ADD, for two finite operands (43_adder_subtractor.md R152 to R160). -/
def addFinite (p : Params) (a b : Word) : Word :=
  finishResult p (addTriples (dec a) (dec b)).sign (addTriples (dec a) (dec b)).mag

/-- ADD(a, b): step 1, the special operands (43_adder_subtractor.md R151), then the finite sum (R150). -/
def addWords (p : Params) (a b : Word) : Word :=
  if classify p a = .nan ∨ classify p b = .nan then qnan p
  else if classify p a = .inf ∧ classify p b = .inf then
    (if signOf a = signOf b then infWord p (signOf a) else qnan p)
  else if classify p a = .inf then infWord p (signOf a)
  else if classify p b = .inf then infWord p (signOf b)
  else addFinite p a b

/-- ADD, op 0x4 (43_adder_subtractor.md R150). -/
def execAdd (s : State) : Host.Outcome State Fault Refusal := onAB (addWords s.params) s

/-- SUB, op 0x5: ADD of a and NEG(b) (43_adder_subtractor.md R163). -/
def execSub (s : State) : Host.Outcome State Fault Refusal := onAB (fun a b => addWords s.params a (flipSign b)) s

/-- NEG, op 0x6 (43_adder_subtractor.md R162). -/
def execNeg (s : State) : Host.Outcome State Fault Refusal := onA (fun a => onY (flipSign a)) s

end Sys2Proof.Machine
end

