-- ==== Sys2Proof/Machine/Codec.lean ====
section
/-! DEFINITION. decimal_bit_codec: PACK and UNPACK (40_bit_codec.md R101, R102). -/

namespace Sys2Proof.Machine

/-- The stored field of a logical significand, modulo 2^53 (40_bit_codec.md R101). -/
def storedField (E S : Nat) : Nat :=
  if E = 0 then S % 2 ^ 53 else (((S : Int) - N15) % 2 ^ 53).toNat

/-- PACK of a triple (40_bit_codec.md R101): no range check, no special values. -/
def packTriple (t : Triple) : Word := packFields t.sign t.E (storedField t.E t.S)

/-- PACK, op 0x0 (40_bit_codec.md R101). -/
def execPack (s : State) : Host.Outcome State Fault Refusal :=
  whenAdmitted s (withPort .pSign s.inp.pSign fun sg => withPort .pExp s.inp.pExp fun E =>
    withPort .pSig s.inp.pSig fun S => drive s (onY (packTriple ⟨sg.getLsbD 0, E.toNat, S.toNat⟩)))

/-- The outputs of UNPACK (40_bit_codec.md R102): the raw fields and the class. -/
def unpackOutputs (p : Params) (w : Word) : Outputs :=
  onFields (BitVec.ofBool (signOf w)) (expField w) ((sigField w).setWidth 54) (classify p w).code

/-- UNPACK, op 0x1 (40_bit_codec.md R102). -/
def execUnpack (s : State) : Host.Outcome State Fault Refusal := onA (unpackOutputs s.params) s

end Sys2Proof.Machine
end

