-- ==== Sys2Proof/Machine/Decoder.lean ====
section
/-! DEFINITION. decimal_decoder: DECODE (41_decoder.md R124). -/

namespace Sys2Proof.Machine

/-- The outputs of DECODE (41_decoder.md R124): the logical triple and the class. -/
def decodeOutputs (p : Params) (w : Word) : Outputs :=
  onFields (BitVec.ofBool (dec w).sign) (BitVec.ofNat 10 (dec w).E) (BitVec.ofNat 54 (dec w).S) (classify p w).code

/-- DECODE, op 0x2 (41_decoder.md R124). -/
def execDecode (s : State) : Host.Outcome State Fault Refusal := onA (decodeOutputs s.params) s

end Sys2Proof.Machine
end

