-- ==== Sys2Proof/Machine/Divider.lean ====
section
/-! DEFINITION. decimal_divider: DIV (45_divider.md R195 to R201). -/

namespace Sys2Proof.Machine

/-- How the downward loop ends (45_divider.md R199): the quotient fits, or one of the loop's two exits. -/
inductive Quotient where
  | fits (x : Scaled)
  | zeroExit
  | overflowExit
deriving DecidableEq, Repr

/-- Step 4, the loop `while Q > N16 - 1 or expn < 0` with its two exits (45_divider.md R199). The first argument bounds the
steps; R202 bounds the loop by 31 steps, so with 31 the bound is never what ends it (entry 11). -/
def divDown (p : Params) : Nat → Nat → Int → Quotient
  | 0, Q, expn => .fits ⟨expn.toNat, Q⟩
  | steps + 1, Q, expn =>
    if Q > N16 - 1 ∨ expn < 0 then
      (if Q / 10 = 0 then .zeroExit
       else if expn + 1 > eMax p then .overflowExit
       else divDown p steps (Q / 10) (expn + 1))
    else .fits ⟨expn.toNat, Q⟩

/-- expn = Ea - Eb + BIAS, signed (45_divider.md R197). -/
def divExponent (x y : Triple) : Int := (x.E : Int) - y.E + BIAS

/-- Steps 2 to 6 of DIV, for finite operands with a divisor that is not zero and result sign s (45_divider.md R197 to R201). -/
def divTriples (p : Params) (s : Bool) (x y : Triple) : Word :=
  match divDown p 31 (x.S * N15 / y.S) (divExponent x y) with
  | .zeroExit => zeroWord s
  | .overflowExit => infWord p s
  | .fits q => packResult p s (renormUp q.expn q.R)

/-- DIV(a, b): step 1, special operands and division by zero (45_divider.md R196), then the finite quotient (R195). -/
def divWords (p : Params) (a b : Word) : Word :=
  if classify p a = .nan ∨ classify p b = .nan then qnan p
  else if classify p b = .zero then qnan p
  else if classify p a = .inf ∧ classify p b = .inf then qnan p
  else if classify p a = .inf then infWord p (signOf a ^^ signOf b)
  else if classify p b = .inf then zeroWord (signOf a ^^ signOf b)
  else divTriples p (signOf a ^^ signOf b) (dec a) (dec b)

/-- DIV, op 0x8 (45_divider.md R195). -/
def execDiv (s : State) : Host.Outcome State Fault Refusal := onAB (divWords s.params) s

end Sys2Proof.Machine
end

