-- ==== Sys2Proof/Machine/Multiplier.lean ====
section
/-! DEFINITION. decimal_multiplier: MUL (44_multiplier.md R180 to R185). -/

namespace Sys2Proof.Machine

/-- expn = Ea + Eb - BIAS, signed (44_multiplier.md R182). -/
def mulExponent (x y : Triple) : Int := (x.E : Int) + y.E - BIAS

/-- Steps 2 to 5 of MUL, for two finite operands with result sign s: the early range checks, the product rescaled by 10^15,
carry, renormalization and encoding (44_multiplier.md R182 to R185). -/
def mulTriples (p : Params) (s : Bool) (x y : Triple) : Word :=
  if mulExponent x y < 0 then zeroWord s
  else if mulExponent x y > eMax p then infWord p s
  else finishResult p s ⟨(mulExponent x y).toNat, x.S * y.S / N15⟩

/-- MUL(a, b): step 1, the special operands (44_multiplier.md R181), then the finite product (R180). -/
def mulWords (p : Params) (a b : Word) : Word :=
  if classify p a = .nan ∨ classify p b = .nan then qnan p
  else if (classify p a = .inf ∧ classify p b = .zero) ∨ (classify p a = .zero ∧ classify p b = .inf) then qnan p
  else if classify p a = .inf ∨ classify p b = .inf then infWord p (signOf a ^^ signOf b)
  else mulTriples p (signOf a ^^ signOf b) (dec a) (dec b)

/-- MUL, op 0x7 (44_multiplier.md R180). -/
def execMul (s : State) : Host.Outcome State Fault Refusal := onAB (mulWords s.params) s

end Sys2Proof.Machine
end

