-- ==== Sys2Proof/Machine/Reserved.lean ====
section
/-! DEFINITION. The reserved op values (30_encoding.md R71): the defined QNAN result (entry 6). -/

namespace Sys2Proof.Machine

/-- op 0x9 (30_encoding.md R71). -/
def execReserved9 (s : State) : Host.Outcome State Fault Refusal := reservedTransaction s

/-- op 0xA and 0xB (30_encoding.md R71); the value does not matter. -/
def execReservedAB (_op : BitVec 4) (s : State) : Host.Outcome State Fault Refusal := reservedTransaction s

/-- op 0xC to 0xF (30_encoding.md R71); the value does not matter. -/
def execReservedCF (_op : BitVec 4) (s : State) : Host.Outcome State Fault Refusal := reservedTransaction s

end Sys2Proof.Machine
end

