-- ==== Sys2Proof/Machine/Shifter.lean ====
section
/-! DEFINITION. decimal_digit_shifter: SHIFT (42_digit_shifter.md R141). -/

namespace Sys2Proof.Machine

/-- SHIFT of a 64-bit unsigned integer by the signed count on n (42_digit_shifter.md R141, 30_encoding.md R73). -/
def shiftWord (a : Word) (n : BitVec 8) : Word := BitVec.ofNat 64 (shift10 a.toNat n.toInt)

/-- SHIFT, op 0x3 (42_digit_shifter.md R141). -/
def execShift (s : State) : Host.Outcome State Fault Refusal :=
  whenAdmitted s (withPort .a s.inp.a fun a => withPort .n s.inp.n fun n => drive s (onY (shiftWord a n)))

end Sys2Proof.Machine
end

