-- ==== Sys2Proof/Machine/Dispatch.lean ====
section
/-! DEFINITION. exec: one arm per operation of the op map (30_encoding.md R70, R71). -/

namespace Sys2Proof.Machine

def exec (i : Instr) (s : State) : Host.Outcome State Fault Refusal :=
  match i with
  | .pack => Sys2Proof.Machine.execPack s
  | .unpack => Sys2Proof.Machine.execUnpack s
  | .decode => Sys2Proof.Machine.execDecode s
  | .shift => Sys2Proof.Machine.execShift s
  | .add => Sys2Proof.Machine.execAdd s
  | .sub => Sys2Proof.Machine.execSub s
  | .neg => Sys2Proof.Machine.execNeg s
  | .mul => Sys2Proof.Machine.execMul s
  | .div => Sys2Proof.Machine.execDiv s
  | .reserved9 => Sys2Proof.Machine.execReserved9 s
  | .reservedAB op => Sys2Proof.Machine.execReservedAB op s
  | .reservedCF op => Sys2Proof.Machine.execReservedCF op s

end Sys2Proof.Machine
end

