-- ==== Sys2Proof/Machine/Present.lean ====
section
/-! DEFINITION. One transaction (10_state.md R25), the outputs that the operation rules give for the current inputs (R21,
70_reset_and_hazards.md R250), and how the host presents inputs. -/

namespace Sys2Proof.Machine

/-- One transaction: the operation that op names, on the ports as they stand. Nothing is added around `exec`: there is no
program counter to move (10_state.md R28). -/
def transaction (s : State) : Host.Outcome State Fault Refusal := withCommand s fun i => exec i s

/-- The outputs as a function of the build parameters and the current inputs, and of nothing else (10_state.md R21). `none`
where the transaction is refused: its outputs are then unspecified (70_reset_and_hazards.md R259, R253; entry 1). -/
def outputsFor (p : Params) (inp : Inputs) : Option Outputs := (nextState (transaction ⟨p, inp, none⟩)).bind State.out

/-- The block settled: every output is what the operation rules give for the current inputs, and nothing of an earlier
transaction is left (70_reset_and_hazards.md R250). -/
def State.settled (s : State) : State := { s with out := outputsFor s.params s.inp }

/-- The host presents a value on every input port, or leaves a port undriven (10_state.md R25, 70_reset_and_hazards.md R259);
the outputs follow at once (R250). -/
def State.present (s : State) (inp : Inputs) : State := State.settled { s with inp := inp }

end Sys2Proof.Machine
end

