-- ==== Sys2Proof/Machine/Step.lean ====
section
/-! DEFINITION. step: one transaction (10_state.md R25, 70_reset_and_hazards.md R262), and how a command is presented. -/

namespace Sys2Proof.Machine

/-- One step is one transaction on the inputs as they are presented (entry 2). -/
def step (s : State) : Host.Outcome State Fault Refusal := transaction s

/-- The command on the op port, which is where the block takes its operation from (10_state.md R28). The table gives a
command four bits; a number that four bits cannot hold leaves the port undriven. The other input ports stay as they are, which
is the model's choice (DESIGN CHOICE, entry 5); the outputs follow the inputs (70_reset_and_hazards.md R250). -/
def State.withFetchWord (s : State) (_nbits w : Nat) : State :=
  s.present { s.inp with op := if w < 16 then some (BitVec.ofNat 4 w) else none }

end Sys2Proof.Machine
end

