-- ==== Sys2Proof/Machine/Render.lean ====
section
/-! DEFINITION. What a word means outside the block: its exact value (30_encoding.md R57) and the reference rendering FMT
(R78), which is a test oracle and no output of the block (R78, 70_reset_and_hazards.md R261). -/

namespace Sys2Proof.Machine

/-- The value of a finite word (30_encoding.md R57). Words of class INF and NAN have none, and the number this gives for
them means nothing. -/
def value (w : Word) : ℚ :=
  (if (dec w).sign then -1 else 1) * ((dec w).S : ℚ) * (10 : ℚ) ^ (((dec w).E : Int) - BIAS - 15)

/-- One decimal digit. -/
def digitChar (d : Nat) : Char := Char.ofNat (48 + d % 10)

/-- The last `k` decimal digits of a number, zero-padded, most significant first. -/
def digitsPadded : Nat → Nat → List Char
  | 0, _ => []
  | k + 1, v => digitsPadded k (v / 10) ++ [digitChar v]

/-- A number below 10000 in decimal without padding; a scientific exponent's magnitude is at most 512. -/
def decimalShort (v : Nat) : List Char :=
  if v < 10 then digitsPadded 1 v
  else if v < 100 then digitsPadded 2 v
  else if v < 1000 then digitsPadded 3 v
  else digitsPadded 4 v

/-- The rendering of a finite triple: sign, digit, point, fifteen digits, exponent (30_encoding.md R78). -/
def renderTriple (t : Triple) : List Char :=
  [if t.sign then '-' else '+'] ++ digitsPadded 1 (t.S / 10 ^ 15) ++ ['.'] ++ digitsPadded 15 t.S ++ ['e'] ++
    [if t.E ≥ BIAS then '+' else '-'] ++ decimalShort ((t.E : Int) - BIAS).natAbs

/-- FMT (30_encoding.md R78), as the list of its characters. -/
def fmt (p : Params) (w : Word) : List Char :=
  match classify p w with
  | .inf => [if signOf w then '-' else '+', 'I', 'n', 'f', 'i', 'n', 'i', 't', 'y']
  | .nan => ['N', 'a', 'N']
  | .zero | .subnormal | .normal => renderTriple (dec w)

end Sys2Proof.Machine
end

