-- ==== Sys2Proof/Machine/HostSide.lean ====
section
/-! DEFINITION. The outside of the block: a reset input (70_reset_and_hazards.md R250), a clocked wrapper (R258), and a host's
storage of words as bytes (20_memory.md R44). -/

namespace Sys2Proof.Machine

/-- A reset input of a wrapper: the block has nothing to initialise and the parameters are not reset values (R251). The outputs
are, as ever, those of the current inputs, whatever stood on them before (70_reset_and_hazards.md R250, 10_state.md R32); where
they are so already, nothing changes. -/
def resetInput (s : State) : State := s.settled

/-- The output ports behind a clocked wrapper, `elapsed` cycles after the host presented inputs that it holds stable:
defined only once LATENCY has elapsed (70_reset_and_hazards.md R258). `none` also where the transaction is refused. -/
def wrapperOutputs (latency elapsed : Nat) (s : State) : Option Outputs :=
  if elapsed < latency then none else (nextState (step s)).bind State.out

/-- The eight bytes of a word, least significant first. -/
def littleBytes (w : Word) : List Byte :=
  [w.extractLsb' 0 8, w.extractLsb' 8 8, w.extractLsb' 16 8, w.extractLsb' 24 8,
   w.extractLsb' 32 8, w.extractLsb' 40 8, w.extractLsb' 48 8, w.extractLsb' 56 8]

/-- A word as the host stores it, byte at the lowest address first, in the host's byte order (20_memory.md R44). -/
def wordToBytes (order : ByteOrder) (w : Word) : List Byte :=
  match order with
  | .littleEndian => littleBytes w
  | .bigEndian => (littleBytes w).reverse

/-- The word of eight bytes, least significant first; `none` for any other number of bytes. -/
def wordOfLittle (bytes : List Byte) : Option Word :=
  match bytes with
  | [b0, b1, b2, b3, b4, b5, b6, b7] => some (b7 ++ b6 ++ b5 ++ b4 ++ b3 ++ b2 ++ b1 ++ b0)
  | _ => none

/-- A word read back from the host's storage (20_memory.md R44). -/
def wordOfBytes (order : ByteOrder) (bytes : List Byte) : Option Word :=
  match order with
  | .littleEndian => wordOfLittle bytes
  | .bigEndian => wordOfLittle bytes.reverse

end Sys2Proof.Machine
end

