-- ==== Sys2Proof/Machine/Script.lean ====
section
/-! DEFINITION. Transaction scripts, the host's layer above `step` (30_encoding.md R76, R77). The names w1, w2 and so on
belong to the host and are no state of the block (10_state.md R27). -/

namespace Sys2Proof.Machine

/-- A word operand of a script line: a host value name or a literal word (30_encoding.md R76). -/
inductive Src where
  | slot (name : Nat)
  | lit (w : Word)
deriving DecidableEq, Repr

/-- One line of a script (30_encoding.md R76, R77). `d` is the host value name that takes y. -/
inductive Line where
  | pack (d : Nat) (s : BitVec 1) (E : BitVec 10) (S : Src)
  | unpack (a : Src)
  | decode (a : Src)
  | shift (d : Nat) (a : Src) (n : BitVec 8)
  | add (d : Nat) (a b : Src)
  | sub (d : Nat) (a b : Src)
  | neg (d : Nat) (a : Src)
  | mul (d : Nat) (a b : Src)
  | div (d : Nat) (a b : Src)
  | make (d : Nat) (units frac exp : Int)
deriving DecidableEq, Repr

/-- What UNPACK or DECODE leaves with the host: (s, E, F or S, k). -/
structure Fields where
  sign : BitVec 1
  exp : BitVec 10
  sig : BitVec 54
  cls : WordClass
deriving DecidableEq, Repr

/-- A host with its block: the values it holds by name and the fields it read last. -/
structure Session where
  block : State
  slots : List (Nat × Word)
  fields : Option Fields
deriving DecidableEq, Repr

/-- A program starts with every slot empty (95_test_vectors.md section 3). -/
def Session.start (block : State) : Session := ⟨block, [], none⟩

/-- The value behind an operand; an empty slot has none, and the port is then undriven (entry 13). -/
def Session.value (h : Session) : Src → Option Word
  | .lit w => some w
  | .slot name => h.slots.lookup name

/-- The host stores a value under a name. -/
def Session.store (h : Session) (d : Nat) (w : Word) : Session :=
  { h with slots := (d, w) :: h.slots.filter (fun c => c.1 != d) }

/-- No port driven. -/
def Inputs.undriven : Inputs := ⟨none, none, none, none, none, none, none⟩

/-- A significand that the 54-bit port can hold (30_encoding.md R73, entry 13). -/
def sigPort (w : Word) : Option (BitVec 54) := if w.toNat < 2 ^ 54 then some (w.setWidth 54) else none

/-- MAKE's domain (30_encoding.md R77): 1 <= |u| <= 9, 0 <= f <= N15 - 1, E_MIN_N <= x + BIAS <= E_MAX. -/
def makeDomain (p : Params) (units frac exp : Int) : Bool :=
  decide (1 ≤ units.natAbs ∧ units.natAbs ≤ 9 ∧ 0 ≤ frac ∧ frac < N15 ∧ 1 ≤ exp + BIAS ∧ exp + BIAS ≤ eMax p)

/-- The ports that a PACK line presents. -/
def packInputs (s : BitVec 1) (E : BitVec 10) (S : Option (BitVec 54)) : Inputs :=
  { Inputs.undriven with op := some 0x0, pSign := some s, pExp := some E, pSig := S }

/-- The one transaction that MAKE stands for (30_encoding.md R77). -/
def makeInputs (units frac exp : Int) : Inputs :=
  packInputs (BitVec.ofBool (decide (units < 0))) (BitVec.ofInt 10 (exp + BIAS))
    (some (BitVec.ofInt 54 (frac + units.natAbs * N15)))

/-- The ports that a line presents; the ports its operation ignores stay undriven (30_encoding.md R72, R76). -/
def Line.inputs (h : Session) : Line → Inputs
  | .pack _ s E S => packInputs s E ((h.value S).bind sigPort)
  | .unpack a => { Inputs.undriven with op := some 0x1, a := h.value a }
  | .decode a => { Inputs.undriven with op := some 0x2, a := h.value a }
  | .shift _ a n => { Inputs.undriven with op := some 0x3, a := h.value a, n := some n }
  | .add _ a b => { Inputs.undriven with op := some 0x4, a := h.value a, b := h.value b }
  | .sub _ a b => { Inputs.undriven with op := some 0x5, a := h.value a, b := h.value b }
  | .neg _ a => { Inputs.undriven with op := some 0x6, a := h.value a }
  | .mul _ a b => { Inputs.undriven with op := some 0x7, a := h.value a, b := h.value b }
  | .div _ a b => { Inputs.undriven with op := some 0x8, a := h.value a, b := h.value b }
  | .make _ units frac exp => makeInputs units frac exp

/-- The host reads the class; a code of no class is a fault (93_implementation_defined.md I14). -/
def readClass (o : Outputs) : Host.Outcome WordClass Fault Refusal :=
  match classOfCode o.uClass with
  | some k => .next k
  | none => .fault (.reservedClassCode o.uClass)

/-- What the host keeps of y: a value under a name. -/
def keepY (h : Session) (d : Nat) (o : Outputs) : Host.Outcome Session Fault Refusal := .next (h.store d o.y)

/-- What the host keeps of UNPACK's or DECODE's outputs: the fields and the class. -/
def keepFields (h : Session) (o : Outputs) : Host.Outcome Session Fault Refusal :=
  match readClass o with
  | .next k => .next { h with fields := some ⟨o.uSign, o.uExp, o.uSig, k⟩ }
  | .fault f => .fault f
  | .refused r => .refused r

/-- What the host keeps of the outputs of a completed line. -/
def Line.keep (h : Session) (o : Outputs) : Line → Host.Outcome Session Fault Refusal
  | .pack d _ _ _ | .shift d _ _ | .add d _ _ | .sub d _ _ | .neg d _ | .mul d _ _ | .div d _ _ | .make d _ _ _ => keepY h d o
  | .unpack _ | .decode _ => keepFields h o

/-- The host reads the output ports after a step. A completed step leaves them specified (statement NoEarlierValueAppears), so
there always is something to keep. -/
def Line.read (h : Session) (l : Line) : Host.Outcome Session Fault Refusal :=
  match h.block.out with
  | some o => l.keep h o
  | none => .next h

/-- A line that the script may not hold: a MAKE outside its domain (30_encoding.md R77). -/
def Line.allowed (p : Params) : Line → Bool
  | .make _ units frac exp => makeDomain p units frac exp
  | .pack _ _ _ _ | .unpack _ | .decode _ | .shift _ _ _ | .add _ _ _ | .sub _ _ _ | .neg _ _ | .mul _ _ _ | .div _ _ _ => true

/-- One line: present, step, keep (30_encoding.md R76). A MAKE outside its domain is refused before anything is presented, so on an
instance that R253 does not admit the refusal names the domain and not the instance. The spec asks for both refusals and gives
no order between them: DESIGN CHOICE (entry 14). -/
def runLine (l : Line) (h : Session) : Host.Outcome Session Fault Refusal :=
  if l.allowed h.block.params then
    match step (h.block.present (l.inputs h)) with
    | .next t => l.read { h with block := t }
    | .fault f => .fault f
    | .refused r => .refused r
  else .refused .makeOutsideDomain

/-- A script without host steps, line after line. -/
def runScript : List Line → Session → Host.Outcome Session Fault Refusal
  | [], h => .next h
  | l :: rest, h =>
    match runLine l h with
    | .next h' => runScript rest h'
    | .fault f => .fault f
    | .refused r => .refused r

end Sys2Proof.Machine
end

