-- ==== Sys2Proof/Safety.lean ====
section
/-! DEFINITION. What counts as a safe run: no step stops. A transaction is ready when the instance is admitted
(70_reset_and_hazards.md R253) and every port it reads is driven (R259). Below it stand the predicates in which the statements speak:
they spell out rules of the spec in plain arithmetic. -/

namespace Sys2Proof.Machine

/-- The instance is admitted and the operand ports that `i` reads are driven (30_encoding.md R72). -/
def readyFor (i : Instr) (s : State) : Bool :=
  admitted s.params && (operandPorts i).all s.inp.driven

/-- The transaction on the ports is ready: op is driven too. -/
def ready (s : State) : Bool :=
  match s.inp.op with
  | none => false
  | some op => readyFor (decodeOp op) s

/-- A run is safe when it never stops, however many transactions it takes. -/
def SafeRun (s : State) : Prop := ∀ k, ∃ t, Host.Core.run Sys2Proof.core k s = .next t

/-- The instance is admitted (R253) and port a carries `a`. -/
def PresentsA (s : State) (a : Word) : Prop := admitted s.params = true ∧ s.inp.a = some a

/-- The instance is admitted (R253) and ports a and b carry `a` and `b`. -/
def PresentsAB (s : State) (a b : Word) : Prop := admitted s.params = true ∧ s.inp.a = some a ∧ s.inp.b = some b

/-- The instance is admitted (R253) and the three ports of PACK are driven. -/
def PresentsPack (s : State) (sg : BitVec 1) (E : BitVec 10) (S : BitVec 54) : Prop :=
  admitted s.params = true ∧ s.inp.pSign = some sg ∧ s.inp.pExp = some E ∧ s.inp.pSig = some S

/-- The transaction completed with `y` on port y and 0 on every other output; parameters and inputs as before (R26, R47). -/
def State.yields (s : State) (y : Word) : State := ⟨s.params, s.inp, some ⟨y, 0, 0, 0, 0⟩⟩

/-- The transaction completed with the fields on u_sign, u_exp, u_sig and u_class and 0 on y; parameters and inputs as before. -/
def State.yieldsFields (s : State) (sg : BitVec 1) (E : BitVec 10) (S : BitVec 54) (k : BitVec 3) : State :=
  ⟨s.params, s.inp, some ⟨0, sg, E, S, k⟩⟩

/-- The sign bit's weight in a word (R56). -/
def signWeight (s : Bool) : Nat := if s then 2 ^ 63 else 0

/-- The upward loop of R159 (and R184, R200) counted: k multiplications by ten, the least number after which R has 16 digits or
the exponent is 0. R159's own closed form stops one digit earlier (t = 15 less the number of digits, where its loop takes 16
less the number); where the two differ the model follows the loop (DESIGN CHOICE, entry 18). -/
def ScalesUp (e R e' R' : Nat) : Prop :=
  ∃ k, k ≤ e ∧ e' = e - k ∧ R' = R * 10 ^ k ∧ (10 ^ 15 ≤ R' ∨ e' = 0) ∧ ∀ j < k, R * 10 ^ j < 10 ^ 15

/-- R158 then R159's loop (entry 18): one digit is dropped if there are 17, then the result is scaled up. -/
def Normalizes (e R e' R' : Nat) : Prop :=
  (10 ^ 16 ≤ R → ScalesUp (e + 1) (R / 10) e' R') ∧ (R < 10 ^ 16 → ScalesUp e R e' R')

/-- PACK_RESULT (R104) as a number: the word of a renormalized result. -/
def EncodesResult (p : Params) (s : Bool) (e R : Nat) (y : Word) : Prop :=
  y.toNat = signWeight s +
    (if e > eMax p then infMag p
     else if e = 0 then (if R = 0 ∨ p.subnormals = false then 0 else min R (2 ^ 53 - 1))
     else e * 2 ^ 53 + (R - 10 ^ 15))

/-- The operation's result is the word of an exact result R at exponent e with sign s, by R158 to R160 (and R184, R185). -/
def RoundsTo (p : Params) (s : Bool) (e R : Nat) (y : Word) : Prop :=
  ∃ e' R', Normalizes e R e' R' ∧ EncodesResult p s e' R' y

/-- The class bounds and the canonical NaN that an arithmetic result obeys (R105, R220, R218). -/
def ArithmeticWord (p : Params) (y : Word) : Prop :=
  (classify p y = .nan → y = qnan p) ∧ (p.subnormals = false → classify p y ≠ .subnormal)

/-- Every u_ output is 0. -/
def Outputs.noFields (o : Outputs) : Prop := o.uSign = 0 ∧ o.uExp = 0 ∧ o.uSig = 0 ∧ o.uClass = 0

/-- What the output ports obey for the operation that produced them (R26, R71, R102, R105, R124, R218, R220). -/
def OutputsObey (p : Params) (i : Instr) (o : Outputs) : Prop :=
  match i with
  | .pack | .shift | .neg => o.noFields
  | .unpack => o.y = 0 ∧ o.uSig.toNat < 2 ^ 53 ∧ o.uClass.toNat ≤ 4
  | .decode => o.y = 0 ∧ o.uSig.toNat < 2 ^ 53 + 10 ^ 15 ∧ o.uClass.toNat ≤ 4
  | .add | .sub | .mul | .div => o.noFields ∧ ArithmeticWord p o.y
  | .reserved9 | .reservedAB _ | .reservedCF _ => o.noFields ∧ o.y = qnan p

/-- The invariant: the instance is admitted, op is driven, and the outputs are specified and obey the rules of the operation on
the op port. -/
def Disciplined (s : State) : Prop :=
  admitted s.params = true ∧ ∃ op o, s.inp.op = some op ∧ s.out = some o ∧ OutputsObey s.params (decodeOp op) o

/-- The outputs are what the operation rules give for the current inputs (R250, R32). -/
def OutputsFollow (s : State) : Prop := s.out = outputsFor s.params s.inp

/-- The condition of R253 that a flaw names, which an instance with that flaw breaks. -/
def BreaksCondition (p : Params) : InstanceFlaw → Prop
  | .wordWidth => p.wordW ≠ 64
  | .exponentWidth => p.expW ≠ 10
  | .significandWidth => p.sigW ≠ 53
  | .biasValue => p.bias ≠ 512
  | .fieldSplitShared => p.fieldSplit ≠ .classic
  | .infinityField => p.specials = .extended ∧ (p.infSigExt < 9 * 10 ^ 15 ∨ 2 ^ 53 - 2 < p.infSigExt)
  | .wideIntermediate => p.wideW < 108

/-- A number written in decimal: at least one character, every one a digit, and no padding (C7). -/
def UnpaddedDecimal (ds : List Char) : Prop :=
  ds ≠ [] ∧ (∀ c ∈ ds, '0' ≤ c ∧ c ≤ '9') ∧ (ds.head? = some '0' → ds = ['0'])

/-- The number that a list of decimal digit characters writes; a statement that uses it says that they are digits. -/
def digitsValue (ds : List Char) : Nat := ds.foldl (fun v c => 10 * v + (c.toNat - 48)) 0

end Sys2Proof.Machine
end

