-- ==== Sys2Proof/Certificates/Slice0/Obligations.lean ====
section
/-! DEFINITION. The statements for the provers, from the numbered rules of spec/. The predicates they use (RoundsTo and
the like) spell rules out in plain arithmetic and stand in Sys2Proof/Safety.lean. -/

open Sys2Proof Sys2Proof.Machine

/-! ### Commands, instances and ports -/

/-- R70, R71, R74. -/
def Obligations.OpValuesSelectOperations : Prop :=
  decodeTableWord 8 0x0 = some .pack ∧ decodeTableWord 8 0x1 = some .unpack ∧ decodeTableWord 8 0x2 = some .decode ∧
  decodeTableWord 8 0x3 = some .shift ∧ decodeTableWord 8 0x4 = some .add ∧ decodeTableWord 8 0x5 = some .sub ∧
  decodeTableWord 8 0x6 = some .neg ∧ decodeTableWord 8 0x7 = some .mul ∧ decodeTableWord 8 0x8 = some .div ∧
  decodeTableWord 8 0x9 = some .reserved9 ∧
  (∀ w, 0xA ≤ w → w ≤ 0xB → decodeTableWord 8 w = some (.reservedAB (BitVec.ofNat 4 w))) ∧
  (∀ w, 0xC ≤ w → w ≤ 0xF → decodeTableWord 8 w = some (.reservedCF (BitVec.ofNat 4 w)))

/-- A number that the 4-bit op port cannot hold (R23) is no command: the decoder refuses it and presenting it leaves op undriven.
The model's choice (entry 5). -/
def Obligations.OversizedCommandSelectsNothing : Prop :=
  ∀ (s : State) (n w : Nat), 0x10 ≤ w → decodeTableWord n w = none ∧
    (admitted s.params = true → step (s.withFetchWord n w) = .refused (.undriven .op))

/-- R70, R71: the rows of the op table do not overlap, cover every op value, and are the decoder's. -/
def Obligations.OpRowsPartitionOpValues : Prop :=
  ∀ op : BitVec 4, (opRows.filter fun r => r.covers op) = [rowOf (decodeOp op)]

/-- R70, R71: decoding an encoded well-formed operation gives it back, and encoding a decoded op value gives that value. -/
def Obligations.OpDecodeEncodeAgree : Prop :=
  (∀ i : Instr, i.wellFormed = true → decodeOp (encode i) = i) ∧
  (∀ op : BitVec 4, encode (decodeOp op) = op ∧ (decodeOp op).wellFormed = true)

/-- R28: a step runs the operation that the op port names, on the ports as they stand. That withFetchWord drives op and leaves
every other port as it stands is the model's choice (entry 5), no rule of the spec. -/
def Obligations.StepRunsDecodedOperation : Prop :=
  (∀ (s : State) (op : BitVec 4), s.inp.op = some op → step s = exec (decodeOp op) s) ∧
  (∀ (s : State) (n w : Nat), w < 16 →
    step (s.withFetchWord n w) =
      exec (decodeOp (BitVec.ofNat 4 w)) { s with inp := { s.inp with op := some (BitVec.ofNat 4 w) } })

/-- R253: the legal parameter sets, and "A model refuses any other instance by name", the name being that of a condition which the
instance breaks. -/
def Obligations.OnlyLegalInstancesRun : Prop :=
  (∀ p : Params, admitted p = true ↔
    p.wordW = 64 ∧ p.expW = 10 ∧ p.sigW = 53 ∧ p.bias = 512 ∧ p.fieldSplit = .classic ∧
    (p.specials = .extended → 9 * 10 ^ 15 ≤ p.infSigExt ∧ p.infSigExt ≤ 2 ^ 53 - 2) ∧ 108 ≤ p.wideW) ∧
  (∀ s : State, admitted s.params = false →
    ∃ flaw, BreaksCondition s.params flaw ∧ step s = .refused (.illegalInstance flaw) ∧ ∀ i, exec i s = .refused (.illegalInstance flaw))

/-- R259: a transaction whose op, or an operand port that it reads, is undriven is refused, naming such a port; and what an
ignored port carries, or whether it is driven, has no effect on the outputs. -/
def Obligations.UndrivenPortsRefusedByName : Prop :=
  (∀ s : State, admitted s.params = true →
    (s.inp.op = none → step s = .refused (.undriven .op)) ∧
    (∀ i, (∃ q ∈ operandPorts i, s.inp.driven q = false) →
      ∃ q ∈ operandPorts i, s.inp.driven q = false ∧ exec i s = .refused (.undriven q))) ∧
  (∀ (i : Instr) (s t : State), s.params = t.params → (∀ q ∈ operandPorts i, s.inp.same t.inp q = true) →
    (nextState (exec i s)).map State.out = (nextState (exec i t)).map State.out)

/-- R25, R253, R259: a transaction completes exactly when it is ready. -/
def Obligations.TransactionCompletesIffReady : Prop :=
  ∀ s : State, (∃ t, step s = .next t) ↔ ready s = true

/-- R25, R47: from a ready transaction the machine never stops. -/
def Obligations.ReadyRunNeverStops : Prop :=
  ∀ s : State, ready s = true → SafeRun s

/-- R47: no side effect, the same outputs for the same inputs and parameters, and a repeated transaction changes nothing. -/
def Obligations.TransactionHasNoSideEffect : Prop :=
  (∀ (i : Instr) (s t : State), exec i s = .next t → t.params = s.params ∧ t.inp = s.inp) ∧
  (∀ s t : State, s.params = t.params → s.inp = t.inp → step s = step t) ∧
  (∀ s t : State, step s = .next t → step t = .next t)

/-- R26: every output port that the operation's rule does not name is driven to 0. -/
def Obligations.UnnamedOutputsAreZero : Prop :=
  ∀ (i : Instr) (s t : State), exec i s = .next t →
    ∃ o, t.out = some o ∧
      if i = .unpack ∨ i = .decode then o.y = 0 else o.uSign = 0 ∧ o.uExp = 0 ∧ o.uSig = 0 ∧ o.uClass = 0

/-- R250, R32: the outputs at reset are what the operation rules give for the inputs at reset. The port values at reset are
the model's choice (entry 3). -/
def Obligations.ResetOutputsFollowInputs : Prop := step State.reset = .next State.reset

/-- R2: the instance at reset is the reference configuration; its WIDE_W and the port values are the model's choice
(entries 3, 4). -/
def Obligations.ResetIsReferenceConfiguration : Prop :=
  admitted State.reset.params = true ∧ State.reset.params.subnormals = true ∧ State.reset.params.specials = .standard ∧
  State.reset.params.fieldSplit = .classic ∧ State.reset.params.infSigExt = 9 * 10 ^ 15 ∧
  State.reset.inp = ⟨some 0, some 0, some 0, some 0, some 0, some 0, some 0⟩ ∧ State.reset.out = some ⟨0, 0, 0, 0, 0⟩

/-! ### Words and classes -/

/-- R61, R63, R64, R71's result word: the helper words as numbers, and their classes. -/
def Obligations.SentinelWords : Prop :=
  (∀ s, (zeroWord s).toNat = signWeight s) ∧
  (∀ p s, admitted p = true →
    (infWord p s).toNat = signWeight s + 1023 * 2 ^ 53 + (match p.specials with | .standard => 0 | .extended => p.infSigExt) ∧
    (qnan p).toNat = 1023 * 2 ^ 53 + (match p.specials with | .standard => 0 | .extended => p.infSigExt) + 1 ∧
    classify p (zeroWord s) = .zero ∧ classify p (infWord p s) = .inf ∧ classify p (qnan p) = .nan)

/-- R121 with R58 to R62: the class of a word from its exponent and significand fields. -/
def Obligations.ClassFromFields : Prop :=
  ∀ (p : Params) (w : Word), admitted p = true →
    let E := w.toNat / 2 ^ 53 % 2 ^ 10
    let F := w.toNat % 2 ^ 53
    let infF := match p.specials with | .standard => 0 | .extended => p.infSigExt
    (classify p w = .zero ↔ E = 0 ∧ F = 0) ∧
    (classify p w = .subnormal ↔ E = 0 ∧ F ≠ 0) ∧
    (classify p w = .inf ↔ E = 1023 ∧ F = infF) ∧
    (classify p w = .nan ↔ (E = 1023 ∧ F > infF) ∨ (1 ≤ E ∧ F > 9 * 10 ^ 15 - 1 ∧ ¬ (E = 1023 ∧ F = infF))) ∧
    (classify p w = .normal ↔
      1 ≤ E ∧ E ≤ (match p.specials with | .standard => 1022 | .extended => 1023) ∧ F ≤ 9 * 10 ^ 15 - 1)

/-- R122. -/
def Obligations.ClassIgnoresSignAndSubnormals : Prop :=
  (∀ (p : Params) (w : Word), classify p (w ^^^ 0x8000000000000000#64) = classify p w) ∧
  (∀ (p q : Params) (w : Word), p.specials = q.specials → (p.specials = .extended → p.infSigExt = q.infSigExt) →
    classify p w = classify q w)

/-- R126. -/
def Obligations.FiniteOperandBounds : Prop :=
  ∀ (p : Params) (w : Word), admitted p = true → finite p w = true →
    (dec w).S ≤ 10 ^ 16 - 1 ∧ ((dec w).E ≥ 1 → 10 ^ 15 ≤ (dec w).S) ∧ ((dec w).E = 0 → (dec w).S ≤ 2 ^ 53 - 1)

/-- R8, R257: the products fit the intermediate of every admitted instance, so computing them exactly loses nothing. -/
def Obligations.IntermediatesFitWideWidth : Prop :=
  (∀ w : Word, (dec w).S < 2 ^ 54) ∧
  (∀ a b : Word, (dec a).S * (dec b).S < 2 ^ 108 ∧ (dec a).S * 10 ^ 15 < 2 ^ 104) ∧
  (∀ (p : Params) (a b : Word), admitted p = true →
    (dec a).S * (dec b).S % 2 ^ p.wideW = (dec a).S * (dec b).S ∧ (dec a).S * 10 ^ 15 % 2 ^ p.wideW = (dec a).S * 10 ^ 15)

/-- R68: every finite value has exactly one encoding for each sign. -/
def Obligations.FiniteValuesHaveOneEncoding : Prop :=
  ∀ (p : Params) (v w : Word), admitted p = true → finite p v = true → finite p w = true →
    signOf v = signOf w → value v = value w → v = w

/-! ### The bit codec and the decoder -/

/-- R101 with R100: PACK completes for every value of its ports, with no range check. -/
def Obligations.PackPlacesFields : Prop :=
  ∀ (s : State) (sg : BitVec 1) (E : BitVec 10) (S : BitVec 54), PresentsPack s sg E S →
    ∃ y : Word, exec .pack s = .next (s.yields y) ∧
      (E = 0 → y.toNat = sg.toNat * 2 ^ 63 + S.toNat % 2 ^ 53) ∧
      (E ≠ 0 → (y.toNat : Int) = sg.toNat * 2 ^ 63 + E.toNat * 2 ^ 53 + ((S.toNat : Int) - 10 ^ 15) % 2 ^ 53)

/-- R102: UNPACK completes for every word, with its raw fields and its class. -/
def Obligations.UnpackSplitsFields : Prop :=
  ∀ (s : State) (w : Word), PresentsA s w →
    exec .unpack s = .next (s.yieldsFields (BitVec.ofNat 1 (w.toNat / 2 ^ 63)) (BitVec.ofNat 10 (w.toNat / 2 ^ 53))
      (BitVec.ofNat 54 (w.toNat % 2 ^ 53)) (classify s.params w).code)

/-- R124 with R120: DECODE completes for every word, with its logical triple and its class. -/
def Obligations.DecodeRestoresLeadingDigit : Prop :=
  ∀ (s : State) (w : Word), PresentsA s w →
    ∃ S : BitVec 54,
      exec .decode s = .next (s.yieldsFields (BitVec.ofNat 1 (w.toNat / 2 ^ 63)) (BitVec.ofNat 10 (w.toNat / 2 ^ 53)) S
        (classify s.params w).code) ∧
      (w.toNat / 2 ^ 53 % 2 ^ 10 = 0 → S.toNat = w.toNat % 2 ^ 53) ∧
      (w.toNat / 2 ^ 53 % 2 ^ 10 ≠ 0 → S.toNat = w.toNat % 2 ^ 53 + 10 ^ 15)

/-- R123: the class codes, and no step drives a reserved one. -/
def Obligations.ClassCodesAreFixed : Prop :=
  WordClass.code .zero = 0 ∧ WordClass.code .subnormal = 1 ∧ WordClass.code .normal = 2 ∧ WordClass.code .inf = 3 ∧
  WordClass.code .nan = 4 ∧ (∀ s t : State, step s = .next t → ∃ o, t.out = some o ∧ o.uClass.toNat ≤ 4)

/-- R103: UNPACK is the inverse of field placement, and not of PACK on normal words. -/
def Obligations.UnpackInvertsPlacement : Prop :=
  (∀ (s : State) (w : Word), PresentsA s w → ∃ g E S k, exec .unpack s = .next (s.yieldsFields g E S k) ∧
    packFields (g.getLsbD 0) E.toNat S.toNat = w) ∧
  (∀ (s : State) (sg : Bool) (E F : Nat), E < 2 ^ 10 → F < 2 ^ 53 → PresentsA s (packFields sg E F) →
    ∃ k, exec .unpack s = .next (s.yieldsFields (BitVec.ofBool sg) (BitVec.ofNat 10 E) (BitVec.ofNat 54 F) k)) ∧
  (∀ (s : State) (sg : BitVec 1) (E : BitVec 10) (S : BitVec 54), PresentsPack s sg E S → E ≠ 0 →
    10 ^ 15 ≤ S.toNat → S.toNat ≤ 10 ^ 15 + (2 ^ 53 - 1) →
    ∃ y g E' F k, exec .pack s = .next (s.yields y) ∧
      exec .unpack ((s.yields y).present { s.inp with a := some y }) =
        .next (((s.yields y).present { s.inp with a := some y }).yieldsFields g E' F k) ∧
      F.toNat + 10 ^ 15 = S.toNat)

/-- R125: PACK and DECODE round-trip every bit pattern, and DECODE inverts PACK on PACK's valid domain. -/
def Obligations.PackAndDecodeRoundTrip : Prop :=
  (∀ (s : State) (w : Word), PresentsA s w →
    ∃ g E S k, exec .decode s = .next (s.yieldsFields g E S k) ∧
      let t := (s.yieldsFields g E S k).present { s.inp with pSign := some g, pExp := some E, pSig := some S }
      exec .pack t = .next (t.yields w)) ∧
  (∀ (s : State) (sg : BitVec 1) (E : BitVec 10) (S : BitVec 54), PresentsPack s sg E S →
    (E = 0 → S.toNat ≤ 2 ^ 53 - 1) → (E ≠ 0 → 10 ^ 15 ≤ S.toNat ∧ S.toNat ≤ 10 ^ 15 + (2 ^ 53 - 1)) →
    ∃ y k, exec .pack s = .next (s.yields y) ∧
      let t := (s.yields y).present { s.inp with a := some y }
      exec .decode t = .next (t.yieldsFields sg E S k))

/-! ### The digit shifter -/

/-- R141 with R140: SHIFT completes for every value and count. -/
def Obligations.ShiftMovesDigits : Prop :=
  ∀ (s : State) (a : Word) (n : BitVec 8), PresentsA s a → s.inp.n = some n →
    ∃ y : Word, exec .shift s = .next (s.yields y) ∧
      (n.toInt ≤ -16 → y = 0) ∧
      (-15 ≤ n.toInt → n.toInt < 0 → y.toNat = a.toNat / 10 ^ n.toInt.natAbs) ∧
      (0 ≤ n.toInt → y.toNat = a.toNat * 10 ^ n.toInt.natAbs % 2 ^ 64)

/-- R142, R143: where SHIFT10 is exact, and that a right shift of a 16-digit integer is truncating division at every count. -/
def Obligations.DigitShiftIsExactDivision : Prop :=
  (∀ v k : Nat, v < 2 ^ 64 → 0 < k → k ≤ 15 → shift10 v (-(k : Int)) = v / 10 ^ k) ∧
  (∀ v k : Nat, v < 10 ^ 16 → shift10 v (-(k : Int)) = v / 10 ^ k) ∧
  (∀ v k : Nat, 16 ≤ k → shift10 v (-(k : Int)) = 0) ∧
  (∀ v k : Nat, v * 10 ^ k < 2 ^ 64 → shift10 v k = v * 10 ^ k)

/-! ### The adder and subtractor -/

/-- R151: the special operands of ADD. -/
def Obligations.AddSpecialOperands : Prop :=
  ∀ (s : State) (a b : Word), PresentsAB s a b →
    (classify s.params a = .nan ∨ classify s.params b = .nan → exec .add s = .next (s.yields (qnan s.params))) ∧
    (classify s.params a = .inf → classify s.params b = .inf →
      (signOf a = signOf b → exec .add s = .next (s.yields a)) ∧
      (signOf a ≠ signOf b → exec .add s = .next (s.yields (qnan s.params)))) ∧
    (classify s.params a = .inf → finite s.params b = true → exec .add s = .next (s.yields a)) ∧
    (finite s.params a = true → classify s.params b = .inf → exec .add s = .next (s.yields b))

/-- R153 with R158 to R160: ADD of finite operands at equal exponents. That RoundsTo follows R159's loop (the loop of R150) and not
its closed form, which contradicts it, is the model's choice (entry 18). -/
def Obligations.AddEqualExponents : Prop :=
  ∀ (s : State) (a b : Word), PresentsAB s a b → finite s.params a = true → finite s.params b = true →
    (dec a).E = (dec b).E →
    ∃ y, exec .add s = .next (s.yields y) ∧
      (signOf a = signOf b → RoundsTo s.params (signOf a) (dec a).E ((dec a).S + (dec b).S) y) ∧
      (signOf a ≠ signOf b → (dec b).S < (dec a).S →
        RoundsTo s.params (signOf a) (dec a).E ((dec a).S - (dec b).S) y) ∧
      (signOf a ≠ signOf b → (dec a).S < (dec b).S →
        RoundsTo s.params (signOf b) (dec a).E ((dec b).S - (dec a).S) y) ∧
      (signOf a ≠ signOf b → (dec a).S = (dec b).S → y = 0)

/-- R154 to R157 with R158 to R160: ADD of finite operands at unequal exponents, whichever operand has the larger one. That RoundsTo
follows R159's loop and not its closed form is the model's choice (entry 18). -/
def Obligations.AddUnequalExponents : Prop :=
  ∀ (s : State) (a b big small : Word), PresentsAB s a b → finite s.params a = true → finite s.params b = true →
    (big = a ∧ small = b ∨ big = b ∧ small = a) → (dec small).E < (dec big).E →
    ∃ y, exec .add s = .next (s.yields y) ∧
      (signOf big = signOf small →
        RoundsTo s.params (signOf big) (dec big).E ((dec big).S + (dec small).S / 10 ^ ((dec big).E - (dec small).E)) y) ∧
      (signOf big ≠ signOf small → 2 * 10 ^ 15 ≤ (dec big).S →
        RoundsTo s.params (signOf big) (dec big).E ((dec big).S - (dec small).S / 10 ^ ((dec big).E - (dec small).E)) y) ∧
      (signOf big ≠ signOf small → (dec big).S < 2 * 10 ^ 15 →
        RoundsTo s.params (signOf big) ((dec big).E - 1)
          ((dec big).S * 10 - (dec small).S / 10 ^ ((dec big).E - (dec small).E - 1)) y)

/-- R157, R165: on the unequal path the large side wins, so the difference is a true difference, and no intermediate reaches
2 x 10^16. -/
def Obligations.AdderLargeSideWins : Prop :=
  ∀ (p : Params) (big small : Word), admitted p = true → finite p big = true → finite p small = true →
    (dec small).E < (dec big).E →
    (dec small).S / 10 ^ ((dec big).E - (dec small).E) < (dec big).S ∧
    ((dec big).S < 2 * 10 ^ 15 →
      (dec small).S / 10 ^ ((dec big).E - (dec small).E - 1) < (dec big).S * 10 ∧ (dec big).S * 10 < 2 * 10 ^ 16) ∧
    0 < (addUnequal (dec big) (dec small)).mag.R ∧ (addUnequal (dec big) (dec small)).mag.R < 2 * 10 ^ 16

/-- R164, first law: ADD is commutative, for all words. -/
def Obligations.AddIsCommutative : Prop :=
  ∀ (s t : State) (a b : Word), PresentsAB s a b → PresentsAB t b a → s.params = t.params →
    ∃ y, exec .add s = .next (s.yields y) ∧ exec .add t = .next (t.yields y)

/-- R164, the additive identity with its two exceptions. -/
def Obligations.AddZeroIsIdentity : Prop :=
  ∀ (s : State) (x z : Word), PresentsAB s x z → finite s.params x = true → classify s.params z = .zero →
    (classify s.params x = .normal → exec .add s = .next (s.yields x)) ∧
    (classify s.params x = .subnormal →
      exec .add s = .next (s.yields (if s.params.subnormals then x else zeroWord (signOf x)))) ∧
    (classify s.params x = .zero →
      exec .add s = .next (s.yields (zeroWord (signOf x && signOf z))))

/-- R162: NEG flips the sign bit of every word and nothing else, so twice NEG is the word. -/
def Obligations.NegFlipsSignBit : Prop :=
  ∀ (s : State) (w : Word), PresentsA s w →
    ∃ y : Word, exec .neg s = .next (s.yields y) ∧ y.getLsbD 63 = !(w.getLsbD 63) ∧
      (∀ j < 63, y.getLsbD j = w.getLsbD j) ∧
      exec .neg (s.present { s.inp with a := some y }) = .next ((s.present { s.inp with a := some y }).yields w)

/-- R163: SUB is ADD of a and NEG(b). -/
def Obligations.SubIsAddOfNegated : Prop :=
  ∀ (s : State) (a b : Word), PresentsAB s a b →
    ∃ y, exec .add (s.present { s.inp with b := some (b ^^^ 0x8000000000000000#64) }) =
        .next ((s.present { s.inp with b := some (b ^^^ 0x8000000000000000#64) }).yields y) ∧
      exec .sub s = .next (s.yields y)

/-- R163, R164: SUB(x, x) = +0 for every finite x; and QNAN for an infinity or a NaN. -/
def Obligations.SubSelfIsPositiveZero : Prop :=
  ∀ (s : State) (x : Word), PresentsAB s x x →
    (finite s.params x = true → exec .sub s = .next (s.yields 0)) ∧
    (finite s.params x = false → exec .sub s = .next (s.yields (qnan s.params)))

/-! ### The multiplier -/

/-- R181: the special operands of MUL. -/
def Obligations.MulSpecialOperands : Prop :=
  ∀ (s : State) (a b : Word), PresentsAB s a b →
    (classify s.params a = .nan ∨ classify s.params b = .nan → exec .mul s = .next (s.yields (qnan s.params))) ∧
    (classify s.params a = .inf ∧ classify s.params b = .zero ∨ classify s.params a = .zero ∧ classify s.params b = .inf →
      exec .mul s = .next (s.yields (qnan s.params))) ∧
    (classify s.params a = .inf → classify s.params b ≠ .nan → classify s.params b ≠ .zero →
      exec .mul s = .next (s.yields (infWord s.params (signOf a ^^ signOf b)))) ∧
    (classify s.params b = .inf → classify s.params a ≠ .nan → classify s.params a ≠ .zero →
      exec .mul s = .next (s.yields (infWord s.params (signOf a ^^ signOf b))))

/-- R182 to R185: MUL of finite operands. -/
def Obligations.MulFiniteProduct : Prop :=
  ∀ (s : State) (a b : Word), PresentsAB s a b → finite s.params a = true → finite s.params b = true →
    ∃ y, exec .mul s = .next (s.yields y) ∧
      ((dec a).E + (dec b).E < 512 → y = zeroWord (signOf a ^^ signOf b)) ∧
      ((dec a).E + (dec b).E > 512 + eMax s.params → y = infWord s.params (signOf a ^^ signOf b)) ∧
      (512 ≤ (dec a).E + (dec b).E → (dec a).E + (dec b).E ≤ 512 + eMax s.params →
        RoundsTo s.params (signOf a ^^ signOf b) ((dec a).E + (dec b).E - 512) ((dec a).S * (dec b).S / 10 ^ 15) y)

/-- R186, first law: MUL is commutative, for all words. -/
def Obligations.MulIsCommutative : Prop :=
  ∀ (s t : State) (a b : Word), PresentsAB s a b → PresentsAB t b a → s.params = t.params →
    ∃ y, exec .mul s = .next (s.yields y) ∧ exec .mul t = .next (t.yields y)

/-- R186: multiplying by 1 (0x4000000000000000). -/
def Obligations.MulByOneIsIdentity : Prop :=
  ∀ (s : State) (x : Word), PresentsAB s x 0x4000000000000000#64 →
    (classify s.params x = .normal → exec .mul s = .next (s.yields x)) ∧
    (classify s.params x = .subnormal →
      exec .mul s = .next (s.yields (if s.params.subnormals then x else zeroWord (signOf x))))

/-- R186, the overflow boundary: the largest finite word times any finite y of magnitude above 1 is INF of y's sign. -/
def Obligations.MulOverflowBoundary : Prop :=
  ∀ (s : State) (m y : Word), PresentsAB s m y →
    m.toNat = eMax s.params * 2 ^ 53 + (9 * 10 ^ 15 - 1) → finite s.params y = true → 1 < |value y| →
    exec .mul s = .next (s.yields (infWord s.params (signOf y)))

/-- R183 with R57: a normal product of normal operands is the exact product truncated toward zero to 16 digits. -/
def Obligations.MulTruncatesExactProduct : Prop :=
  ∀ (s : State) (a b : Word), PresentsAB s a b → classify s.params a = .normal → classify s.params b = .normal →
    ∃ y, exec .mul s = .next (s.yields y) ∧
      (classify s.params y = .normal →
        signOf y = (signOf a ^^ signOf b) ∧
        |value y| ≤ |value a * value b| ∧
        |value a * value b| < |value y| + (10 : ℚ) ^ (((dec y).E : Int) - 527))

/-! ### The divider -/

/-- R196, R219: the special operands of DIV and division by zero. -/
def Obligations.DivSpecialOperands : Prop :=
  ∀ (s : State) (a b : Word), PresentsAB s a b →
    (classify s.params a = .nan ∨ classify s.params b = .nan → exec .div s = .next (s.yields (qnan s.params))) ∧
    (classify s.params b = .zero → exec .div s = .next (s.yields (qnan s.params))) ∧
    (classify s.params a = .inf → classify s.params b = .inf → exec .div s = .next (s.yields (qnan s.params))) ∧
    (classify s.params a = .inf → finite s.params b = true → classify s.params b ≠ .zero →
      exec .div s = .next (s.yields (infWord s.params (signOf a ^^ signOf b)))) ∧
    (finite s.params a = true → classify s.params b = .inf →
      exec .div s = .next (s.yields (zeroWord (signOf a ^^ signOf b))))

/-- R197 to R201: DIV of a finite dividend by a finite non-zero divisor. k is the number of downward steps. -/
def Obligations.DivFiniteQuotient : Prop :=
  ∀ (s : State) (a b : Word), PresentsAB s a b → finite s.params a = true → finite s.params b = true →
    classify s.params b ≠ .zero →
    let Q := (dec a).S * 10 ^ 15 / (dec b).S
    let e : Int := (dec a).E - (dec b).E + 512
    ∃ (y : Word) (k : Nat), exec .div s = .next (s.yields y) ∧
      (Q / 10 ^ k < 10 ^ 16 ∧ 0 ≤ e + k) ∧ (∀ j < k, 10 ^ 16 ≤ Q / 10 ^ j ∨ e + (j : Int) < 0) ∧
      (0 < k → Q / 10 ^ k = 0 → y = zeroWord (signOf a ^^ signOf b)) ∧
      (0 < k → Q / 10 ^ k ≠ 0 → e + k > eMax s.params → y = infWord s.params (signOf a ^^ signOf b)) ∧
      (k = 0 ∨ (Q / 10 ^ k ≠ 0 ∧ e + k ≤ eMax s.params) →
        ∃ e' R', ScalesUp (e + k).toNat (Q / 10 ^ k) e' R' ∧ EncodesResult s.params (signOf a ^^ signOf b) e' R' y)

/-- R202: 31 steps are enough for the downward loop: a larger bound gives the same end. -/
def Obligations.DivLoopEndsWithin31Steps : Prop :=
  ∀ (p : Params) (Q extra : Nat) (e : Int), Q < 10 ^ 31 →
    divDown p (31 + extra) Q e = divDown p 31 Q e ∧
    (∀ x, divDown p 31 Q e = .fits x → x.R < 10 ^ 16)

/-- R203: DIV(x, x) = 1 for every finite non-zero x. -/
def Obligations.DivSelfIsOne : Prop :=
  ∀ (s : State) (x : Word), PresentsAB s x x → finite s.params x = true → classify s.params x ≠ .zero →
    exec .div s = .next (s.yields 0x4000000000000000#64)

/-- R203: DIV(x, 1) = x for every normal x. -/
def Obligations.DivByOneIsIdentity : Prop :=
  ∀ (s : State) (x : Word), PresentsAB s x 0x4000000000000000#64 → classify s.params x = .normal →
    exec .div s = .next (s.yields x)

/-- R198 with R57: a normal quotient of normal operands is the exact quotient cut off toward zero, with an error below one
unit of the last place when the scaled quotient has 16 digits and below ten such units always. -/
def Obligations.DivTruncatesExactQuotient : Prop :=
  ∀ (s : State) (a b : Word), PresentsAB s a b → classify s.params a = .normal → classify s.params b = .normal →
    ∃ y, exec .div s = .next (s.yields y) ∧
      (classify s.params y = .normal →
        signOf y = (signOf a ^^ signOf b) ∧
        |value y| ≤ |value a / value b| ∧
        |value a / value b| < |value y| + (10 : ℚ) ^ (((dec y).E : Int) - 526) ∧
        ((dec b).S ≤ (dec a).S → |value a / value b| < |value y| + (10 : ℚ) ^ (((dec y).E : Int) - 527)))

/-! ### Reserved operations, results and the whole machine -/

/-- R71: a reserved op value gives QNAN on y and 0 elsewhere. -/
def Obligations.ReservedOpsGiveQnan : Prop :=
  ∀ (s : State) (op : BitVec 4), admitted s.params = true →
    exec .reserved9 s = .next (s.yields (qnan s.params)) ∧
    exec (.reservedAB op) s = .next (s.yields (qnan s.params)) ∧
    exec (.reservedCF op) s = .next (s.yields (qnan s.params)) ∧
    (9 ≤ op.toNat → s.inp.op = some op → step s = .next (s.yields (qnan s.params)))

/-- R105: PACK_RESULT never returns a NaN, and the class of its result. -/
def Obligations.PackResultClass : Prop :=
  ∀ (p : Params) (s : Bool) (E R : Nat), admitted p = true → R ≤ 10 ^ 16 - 1 → (E = 0 ∨ 10 ^ 15 ≤ R) →
    (E > eMax p → packResult p s ⟨E, R⟩ = infWord p s) ∧
    (E = 0 → R = 0 ∨ p.subnormals = false → packResult p s ⟨E, R⟩ = zeroWord s) ∧
    (E = 0 → R ≠ 0 → p.subnormals = true →
      classify p (packResult p s ⟨E, R⟩) = .subnormal ∧ dec (packResult p s ⟨E, R⟩) = ⟨s, 0, min R (2 ^ 53 - 1)⟩) ∧
    (1 ≤ E → E ≤ eMax p →
      classify p (packResult p s ⟨E, R⟩) = .normal ∧ dec (packResult p s ⟨E, R⟩) = ⟨s, E, R⟩)

/-- R220, R105, R218, R26, R71, R123 together: every step leaves the outputs within the rules of the operation that it ran: a
computed NaN is QNAN, SUBNORMALS = OFF never produces a subnormal, unnamed outputs are 0, no class code is above 4. It holds
from every state, for the reason R21 gives, and so from every state where the invariant holds. -/
def Obligations.EveryStepKeepsOutputDiscipline : Prop :=
  ∀ s t : State, step s = .next t → Disciplined t

/-- The invariant holds at reset. The port values at reset are the model's choice (entry 3). -/
def Obligations.ResetIsDisciplined : Prop := Disciplined State.reset

/-! ### The host's side -/

/-- R77: MAKE on its domain stores the normal word of value u.f x 10^x, and outside it the script line is refused. -/
def Obligations.MakeBuildsNormalWord : Prop :=
  ∀ (h : Session) (d : Nat) (u f x : Int), admitted h.block.params = true →
    (makeDomain h.block.params u f x = true →
      ∃ h' y, runLine (.make d u f x) h = .next h' ∧ h'.value (.slot d) = some y ∧
        classify h.block.params y = .normal ∧
        value y = (if u < 0 then -1 else 1) * ((f + u.natAbs * 10 ^ 15 : Int) : ℚ) * (10 : ℚ) ^ (x - 15)) ∧
    (makeDomain h.block.params u f x = false → runLine (.make d u f x) h = .refused .makeOutsideDomain)

/-- R78, R79: FMT writes a finite word as its sign, the sixteen digits of S with the point after the first, and E - BIAS in
decimal without padding (C7); every character in a digit's place is a decimal digit. -/
def Obligations.RenderingIsExact : Prop :=
  ∀ (p : Params) (w : Word), admitted p = true → finite p w = true →
    ∃ (d : Char) (frac ex : List Char),
      fmt p w = [if signOf w then '-' else '+', d, '.'] ++ frac ++ ['e', if 512 ≤ (dec w).E then '+' else '-'] ++ ex ∧
      frac.length = 15 ∧ (∀ c ∈ d :: frac, '0' ≤ c ∧ c ≤ '9') ∧ UnpaddedDecimal ex ∧
      digitsValue (d :: frac) = (dec w).S ∧ digitsValue ex = (((dec w).E : Int) - 512).natAbs

/-- R44: words survive the host's storage in either byte order, and the two orders are each other's reverse. -/
def Obligations.StoredWordsReadBack : Prop :=
  ∀ (order : ByteOrder) (w : Word), wordOfBytes order (wordToBytes order w) = some w ∧
    (wordToBytes .bigEndian w) = (wordToBytes .littleEndian w).reverse ∧ (wordToBytes order w).length = 8

/-- R258: behind a clocked wrapper the outputs of a ready transaction are defined once LATENCY has elapsed, and not before. -/
def Obligations.WrapperOutputsAfterLatency : Prop :=
  ∀ (latency elapsed : Nat) (s : State), ready s = true →
    (elapsed < latency → wrapperOutputs latency elapsed s = none) ∧
    (latency ≤ elapsed → ∃ t, step s = .next t ∧ ∃ o, t.out = some o ∧ wrapperOutputs latency elapsed s = some o)

/-! ### The outputs at every instant -/

/-- R250, R32: at every instant each output is what the operation rules give for the current inputs: after a presentation of
inputs, after a command alone is presented, after a reset input, after every step, and at reset. A reset input has no effect
on an output that follows the inputs. -/
def Obligations.OutputsFollowInputs : Prop :=
  (∀ (s : State) (inp : Inputs), OutputsFollow (s.present inp)) ∧
  (∀ (s : State) (n w : Nat), OutputsFollow (s.withFetchWord n w)) ∧
  (∀ s : State, OutputsFollow (resetInput s) ∧ (resetInput s).params = s.params ∧ (resetInput s).inp = s.inp) ∧
  (∀ s : State, OutputsFollow s → resetInput s = s) ∧
  (∀ s t : State, step s = .next t → OutputsFollow t) ∧
  OutputsFollow State.reset

/-- R250, R21, R25: no value of an earlier transaction can appear. Inputs once presented, the outputs are those that the
presented transaction drives (unspecified exactly where it is refused: entry 1), whatever the block did before. -/
def Obligations.NoEarlierValueAppears : Prop :=
  (∀ (s : State) (inp : Inputs), ready (s.present inp) = true → step (s.present inp) = .next (s.present inp)) ∧
  (∀ (s : State) (inp : Inputs), (s.present inp).out = none ↔ ready (s.present inp) = false) ∧
  (∀ (s t : State) (inp : Inputs), s.params = t.params → (s.present inp) = (t.present inp)) ∧
  (∀ s t : State, s.params = t.params → s.inp = t.inp → resetInput s = resetInput t)
end

