-- ==== Sys2Proof/Laws/State.lean ====
section
/-! SUPPORT. One lemma per field per update of State, so that no later proof unfolds a record update. -/

namespace Sys2Proof.Machine

@[simp] theorem State.present_params (s : State) (x : Inputs) : (s.present x).params = s.params := rfl
@[simp] theorem State.present_inp (s : State) (x : Inputs) : (s.present x).inp = x := rfl
@[simp] theorem State.present_out (s : State) (x : Inputs) : (s.present x).out = outputsFor s.params x := rfl

@[simp] theorem State.settled_params (s : State) : s.settled.params = s.params := rfl
@[simp] theorem State.settled_inp (s : State) : s.settled.inp = s.inp := rfl
@[simp] theorem State.settled_out (s : State) : s.settled.out = outputsFor s.params s.inp := rfl

@[simp] theorem resetInput_params (s : State) : (resetInput s).params = s.params := rfl
@[simp] theorem resetInput_inp (s : State) : (resetInput s).inp = s.inp := rfl
@[simp] theorem resetInput_out (s : State) : (resetInput s).out = outputsFor s.params s.inp := rfl

@[simp] theorem State.yields_params (s : State) (y : Word) : (s.yields y).params = s.params := rfl
@[simp] theorem State.yields_inp (s : State) (y : Word) : (s.yields y).inp = s.inp := rfl
@[simp] theorem State.yields_out (s : State) (y : Word) : (s.yields y).out = some (onY y) := rfl

@[simp] theorem State.yieldsFields_params (s : State) (g : BitVec 1) (E : BitVec 10) (S : BitVec 54) (k : BitVec 3) :
    (s.yieldsFields g E S k).params = s.params := rfl
@[simp] theorem State.yieldsFields_inp (s : State) (g : BitVec 1) (E : BitVec 10) (S : BitVec 54) (k : BitVec 3) :
    (s.yieldsFields g E S k).inp = s.inp := rfl
@[simp] theorem State.yieldsFields_out (s : State) (g : BitVec 1) (E : BitVec 10) (S : BitVec 54) (k : BitVec 3) :
    (s.yieldsFields g E S k).out = some (onFields g E S k) := rfl

@[simp] theorem State.withFetchWord_params (s : State) (n w : Nat) : (s.withFetchWord n w).params = s.params := rfl
@[simp] theorem State.withFetchWord_out (s : State) (n w : Nat) : (s.withFetchWord n w).out =
    outputsFor s.params { s.inp with op := if w < 16 then some (BitVec.ofNat 4 w) else none } := rfl
@[simp] theorem State.withFetchWord_op (s : State) (n w : Nat) :
    (s.withFetchWord n w).inp.op = if w < 16 then some (BitVec.ofNat 4 w) else none := rfl

@[simp] theorem onY_y (y : Word) : (onY y).y = y := rfl
@[simp] theorem onY_uSign (y : Word) : (onY y).uSign = 0 := rfl
@[simp] theorem onY_uExp (y : Word) : (onY y).uExp = 0 := rfl
@[simp] theorem onY_uSig (y : Word) : (onY y).uSig = 0 := rfl
@[simp] theorem onY_uClass (y : Word) : (onY y).uClass = 0 := rfl

@[simp] theorem onFields_y (g : BitVec 1) (E : BitVec 10) (S : BitVec 54) (k : BitVec 3) : (onFields g E S k).y = 0 := rfl
@[simp] theorem onFields_uSign (g : BitVec 1) (E : BitVec 10) (S : BitVec 54) (k : BitVec 3) :
    (onFields g E S k).uSign = g := rfl
@[simp] theorem onFields_uExp (g : BitVec 1) (E : BitVec 10) (S : BitVec 54) (k : BitVec 3) :
    (onFields g E S k).uExp = E := rfl
@[simp] theorem onFields_uSig (g : BitVec 1) (E : BitVec 10) (S : BitVec 54) (k : BitVec 3) :
    (onFields g E S k).uSig = S := rfl
@[simp] theorem onFields_uClass (g : BitVec 1) (E : BitVec 10) (S : BitVec 54) (k : BitVec 3) :
    (onFields g E S k).uClass = k := rfl

/-- Driving y alone ends in the state that the statements name. -/
theorem drive_onY (s : State) (y : Word) : drive s (onY y) = .next (s.yields y) := rfl

/-- Driving the fields ends in the state that the statements name. -/
theorem drive_onFields (s : State) (g : BitVec 1) (E : BitVec 10) (S : BitVec 54) (k : BitVec 3) :
    drive s (onFields g E S k) = .next (s.yieldsFields g E S k) := rfl

end Sys2Proof.Machine
end

