-- ==== Sys2Proof/Laws/Words.lean ====
section
/-! SUPPORT. Words as numbers: the fields of a word, field placement, and the helper words (30_encoding.md R56, R64,
40_bit_codec.md R100). -/

namespace Sys2Proof.Machine

theorem signWeight_le (s : Bool) : signWeight s ≤ 2 ^ 63 := by cases s <;> decide

theorem ofBool_toNat_mul (s : Bool) : (BitVec.ofBool s).toNat * 2 ^ 63 = signWeight s := by cases s <;> decide

/-- A sign bit in front of 63 magnitude bits, as a number. -/
theorem ofBool_append_toNat (s : Bool) (m : BitVec 63) : (BitVec.ofBool s ++ m).toNat = signWeight s + m.toNat := by
  rw [BitVec.toNat_append, ← Nat.shiftLeft_add_eq_or_of_lt m.isLt, Nat.shiftLeft_eq, ofBool_toNat_mul]

theorem zeroWord_toNat (s : Bool) : (zeroWord s).toNat = signWeight s := by
  unfold zeroWord; rw [ofBool_append_toNat, BitVec.toNat_ofNat]; simp

theorem infWord_toNat (p : Params) (s : Bool) (h : infMag p < 2 ^ 63) : (infWord p s).toNat = signWeight s + infMag p := by
  unfold infWord; rw [ofBool_append_toNat, BitVec.toNat_ofNat, Nat.mod_eq_of_lt h]

theorem qnan_toNat (p : Params) (h : infMag p + 1 < 2 ^ 63) : (qnan p).toNat = infMag p + 1 := by
  unfold qnan; rw [ofBool_append_toNat, BitVec.toNat_ofNat, Nat.mod_eq_of_lt h]; simp [signWeight]

/-- PACK_FIELDS as a number (40_bit_codec.md R100): because the fields never overlap, it is a sum. -/
theorem packFields_toNat (s : Bool) {E F : Nat} (hE : E < 2 ^ 10) (hF : F < 2 ^ 53) :
    (packFields s E F).toNat = signWeight s + E * 2 ^ 53 + F := by
  unfold packFields
  rw [BitVec.toNat_append, ← Nat.shiftLeft_add_eq_or_of_lt (BitVec.isLt _), Nat.shiftLeft_eq, BitVec.toNat_append,
    ← Nat.shiftLeft_add_eq_or_of_lt (BitVec.isLt _), Nat.shiftLeft_eq, BitVec.toNat_ofNat, BitVec.toNat_ofNat,
    Nat.mod_eq_of_lt hE, Nat.mod_eq_of_lt hF]
  rw [Nat.add_mul, Nat.mul_assoc, ← Nat.pow_add, ofBool_toNat_mul]

theorem expField_toNat (w : Word) : (expField w).toNat = w.toNat / 2 ^ 53 % 2 ^ 10 := by
  simp [expField, BitVec.extractLsb'_toNat, Nat.shiftRight_eq_div_pow]

theorem sigField_toNat (w : Word) : (sigField w).toNat = w.toNat % 2 ^ 53 := by
  simp [sigField, BitVec.extractLsb'_toNat]

theorem magnitude_toNat (w : Word) : (magnitude w).toNat = w.toNat % 2 ^ 63 := by
  simp [magnitude, BitVec.extractLsb'_toNat]

theorem signOf_eq (w : Word) : signOf w = decide (2 ^ 63 ≤ w.toNat) := by
  have h := w.isLt
  rw [signOf, BitVec.getLsbD, Nat.testBit_eq_decide_div_mod_eq]
  by_cases h' : 2 ^ 63 ≤ w.toNat
  · simp only [h', decide_true, decide_eq_true_eq]; omega
  · simp only [h', decide_false, decide_eq_false_iff_not]; omega

/-- A word is its three fields (30_encoding.md R56). -/
theorem word_toNat_eq (w : Word) :
    w.toNat = signWeight (signOf w) + (expField w).toNat * 2 ^ 53 + (sigField w).toNat := by
  have h := w.isLt
  rw [expField_toNat, sigField_toNat, signOf_eq]
  simp only [signWeight, decide_eq_true_eq]
  split <;> omega

/-- The magnitude is the exponent field and the significand field side by side (30_encoding.md R56). -/
theorem magnitude_eq (w : Word) : (magnitude w).toNat = (expField w).toNat * 2 ^ 53 + (sigField w).toNat := by
  rw [magnitude_toNat, expField_toNat, sigField_toNat]; omega

theorem expField_lt (w : Word) : (expField w).toNat < 2 ^ 10 := (expField w).isLt

theorem sigField_lt (w : Word) : (sigField w).toNat < 2 ^ 53 := (sigField w).isLt

/-- The fields of a word given as a sign and a magnitude. -/
theorem fields_of_toNat {w : Word} {s : Bool} {E F : Nat} (hE : E < 2 ^ 10) (hF : F < 2 ^ 53)
    (h : w.toNat = signWeight s + E * 2 ^ 53 + F) :
    signOf w = s ∧ (expField w).toNat = E ∧ (sigField w).toNat = F := by
  rw [signOf_eq, expField_toNat, sigField_toNat, h]
  cases s <;> simp [signWeight] <;> omega

theorem packFields_fields (s : Bool) {E F : Nat} (hE : E < 2 ^ 10) (hF : F < 2 ^ 53) :
    signOf (packFields s E F) = s ∧ (expField (packFields s E F)).toNat = E ∧ (sigField (packFields s E F)).toNat = F :=
  fields_of_toNat hE hF (packFields_toNat s hE hF)

/-- The logical triple of placed fields (41_decoder.md R120). -/
theorem dec_packFields (s : Bool) {E F : Nat} (hE : E < 2 ^ 10) (hF : F < 2 ^ 53) :
    dec (packFields s E F) = ⟨s, E, if E = 0 then F else F + N15⟩ := by
  obtain ⟨h1, h2, h3⟩ := packFields_fields s hE hF
  simp [dec, h1, h2, h3]

theorem signBit_getLsbD {j : Nat} (h : j < 63) : (0x8000000000000000#64).getLsbD j = false := by
  rw [show 0x8000000000000000#64 = BitVec.twoPow 64 63 by decide, BitVec.getLsbD_twoPow]
  simp; omega

/-- The sign flip changes the sign and keeps the magnitude (43_adder_subtractor.md R162). -/
theorem flipSign_fields (w : Word) :
    signOf (flipSign w) = !signOf w ∧ expField (flipSign w) = expField w ∧ sigField (flipSign w) = sigField w ∧
      magnitude (flipSign w) = magnitude w := by
  refine ⟨?_, ?_, ?_, ?_⟩
  · simp [signOf, flipSign]
  all_goals
    ext i hi
    simp only [expField, sigField, magnitude, flipSign, BitVec.getElem_extractLsb', BitVec.getLsbD_xor]
    rw [signBit_getLsbD (by omega), Bool.xor_false]

/-- Where infinity's field lies in an admitted instance (30_encoding.md R61, 70_reset_and_hazards.md R253). -/
theorem infField_bounds {p : Params} (h : admitted p = true) :
    (p.specials = .standard ∧ infField p = 0 ∧ eMax p = 1022) ∨
    (p.specials = .extended ∧ STORED_MAX < infField p ∧ infField p < F_MAX ∧ eMax p = 1023) := by
  have h6 : p.specials = .extended → 9000000000000000 ≤ p.infSigExt ∧ p.infSigExt ≤ 2 ^ 53 - 2 := by
    intro hs
    by_contra hc
    simp only [admitted, instanceFlaw, hs, hc] at h
    split_ifs at h <;> simp_all
  cases hs : p.specials with
  | standard => simp [infField, hs, eMax]
  | extended =>
    have := h6 hs
    simp only [infField, hs, eMax, STORED_MAX, F_MAX]
    simp; omega

/-- The magnitude bits of infinity fit below the sign bit in every admitted instance (70_reset_and_hazards.md R253). -/
theorem infMag_lt {p : Params} (h : admitted p = true) : infMag p + 1 < 2 ^ 63 := by
  obtain ⟨-, hf, -⟩ | ⟨-, -, hf, -⟩ := infField_bounds h <;> simp only [infMag, E_ALL1, F_MAX] at * <;> omega

end Sys2Proof.Machine
end

