-- ==== Sys2Proof/Laws/Scaling.lean ====
section
/-! SUPPORT. What the shared arithmetic operations do, once: the digit shift, carry-out, the upward loop, PACK_RESULT, and the
three of them in a row. The statements' predicates (ScalesUp, Normalizes, EncodesResult, RoundsTo) are met. -/

namespace Sys2Proof.Machine

/-- A left shift wraps in 64 bits (42_digit_shifter.md R140). -/
theorem shift10_left (v k : Nat) : shift10 v k = v * 10 ^ k % 2 ^ 64 := by
  have hk : ¬ ((k : Int) < 0) := by omega
  by_cases hv : v = 0 <;> simp [shift10, hv, hk]

/-- A right shift divides, and gives 0 beyond fifteen digits (42_digit_shifter.md R140). -/
theorem shift10_right (v k : Nat) (hk : 0 < k) : shift10 v (-(k : Int)) = if 15 < k then 0 else v / 10 ^ k := by
  have h1 : (-(k : Int)) < 0 := by omega
  by_cases hv : v = 0
  · simp [shift10, hv]
  · simp only [shift10, hv, h1, if_true, if_false, neg_neg, Int.toNat_natCast]
    by_cases h : 15 < k
    · simp [h, show (k : Int) > 15 by omega]
    · simp [h, show ¬ ((k : Int) > 15) by omega]

theorem carryOut_of_ge {e R : Nat} (h : 10 ^ 16 ≤ R) : carryOut ⟨e, R⟩ = ⟨e + 1, R / 10⟩ := by
  exact if_pos (show R > N16 - 1 by simp only [N16]; omega)

theorem carryOut_of_lt {e R : Nat} (h : R < 10 ^ 16) : carryOut ⟨e, R⟩ = ⟨e, R⟩ := by
  exact if_neg (show ¬ R > N16 - 1 by simp only [N16]; omega)

/-- The upward loop counted in steps (43_adder_subtractor.md R159, the loop; entry 18). -/
theorem renormUp_scalesUp (e R : Nat) : ScalesUp e R (renormUp e R).expn (renormUp e R).R := by
  induction e generalizing R with
  | zero => exact ⟨0, by simp [renormUp]⟩
  | succ e ih =>
    by_cases h : R < N15
    · obtain ⟨k, h1, h2, h3, h4, h5⟩ := ih (R * 10)
      have hr : renormUp (e + 1) R = renormUp e (R * 10) := by simp [renormUp, h]
      refine ⟨k + 1, by omega, by rw [hr]; omega, by rw [hr, h3]; ring, by rw [hr]; exact h4, ?_⟩
      intro j hj
      cases j with
      | zero => simpa [N15] using h
      | succ j => have := h5 j (by omega); calc R * 10 ^ (j + 1) = R * 10 * 10 ^ j := by ring
                  _ < 10 ^ 15 := this
    · refine ⟨0, ?_⟩
      simp only [renormUp, h, if_false]
      simp only [N15] at h
      simp; omega

/-- The upward loop never makes a 17th digit and leaves 16 digits or exponent 0 (40_bit_codec.md R106). -/
theorem renormUp_bounds {e R : Nat} (h : R < 10 ^ 16) :
    (renormUp e R).R < 10 ^ 16 ∧ (10 ^ 15 ≤ (renormUp e R).R ∨ (renormUp e R).expn = 0) := by
  obtain ⟨k, -, -, h3, h4, h5⟩ := renormUp_scalesUp e R
  refine ⟨?_, h4⟩
  rw [h3]
  cases k with
  | zero => simpa using h
  | succ k => have := h5 k (by omega); rw [pow_succ, ← mul_assoc]; omega

/-- PACK_RESULT as a number, under its preconditions (40_bit_codec.md R104). -/
theorem packResult_encodes {p : Params} (hp : admitted p = true) (s : Bool) {e R : Nat} (hR : R < 10 ^ 16)
    (h : 10 ^ 15 ≤ R ∨ e = 0) : EncodesResult p s e R (packResult p s ⟨e, R⟩) := by
  have hE : eMax p < 2 ^ 10 := by obtain ⟨-, -, h⟩ | ⟨-, -, -, h⟩ := infField_bounds hp <;> omega
  unfold EncodesResult packResult
  simp only
  by_cases h1 : e > eMax p
  · simp only [h1, if_true]; exact infWord_toNat p s (by have := infMag_lt hp; omega)
  · by_cases h2 : e = 0
    · subst h2
      simp only [h1, if_false, if_true]
      by_cases h3 : R = 0
      · simp [h3, zeroWord_toNat]
      · cases h4 : p.subnormals
        · simp [h3, zeroWord_toNat]
        · simp only [h3, if_false, false_or, Bool.true_eq_false]
          rw [packFields_toNat s (by omega) (by simp only [F_MAX]; omega)]
          simp only [F_MAX]; omega
    · simp only [h1, h2, if_false]
      rw [packFields_toNat s (by omega) (by simp only [N15]; omega)]
      simp only [N15]; omega

/-- Carry-out, the upward loop and the encoding in a row, for a result below 10^17 (43_adder_subtractor.md R158 to R160,
44_multiplier.md R184, R185). -/
theorem finishResult_roundsTo {p : Params} (hp : admitted p = true) (s : Bool) {e R : Nat} (hR : R < 10 ^ 17) :
    RoundsTo p s e R (finishResult p s ⟨e, R⟩) := by
  by_cases h : 10 ^ 16 ≤ R
  · obtain ⟨hb, hc⟩ := renormUp_bounds (e := e + 1) (R := R / 10) (by omega)
    refine ⟨_, _, ⟨fun _ => renormUp_scalesUp (e + 1) (R / 10), fun hlt => absurd h (by omega)⟩, ?_⟩
    rw [finishResult, carryOut_of_ge h]
    exact packResult_encodes hp s hb hc
  · obtain ⟨hb, hc⟩ := renormUp_bounds (e := e) (R := R) (by omega)
    refine ⟨_, _, ⟨fun hge => absurd hge h, fun _ => renormUp_scalesUp e R⟩, ?_⟩
    rw [finishResult, carryOut_of_lt (by omega)]
    exact packResult_encodes hp s hb hc

end Sys2Proof.Machine
end

