-- ==== Sys2Proof/Laws/Arithmetic.lean ====
section
/-! SUPPORT. The three arithmetic functions by case: special operands aside, the early checks of MUL, and one step of DIV's
downward loop. -/

namespace Sys2Proof.Machine

/-- A finite word is no NaN and no infinity (30_encoding.md R57). -/
theorem finite_not_special {p : Params} {w : Word} (h : finite p w = true) :
    classify p w ≠ .nan ∧ classify p w ≠ .inf := by
  constructor <;> intro hc <;> simp [finite, hc] at h

/-- A word that is no NaN and no infinity is finite. -/
theorem finite_of_not_special {p : Params} {w : Word} (h1 : classify p w ≠ .nan) (h2 : classify p w ≠ .inf) :
    finite p w = true := by
  cases h : classify p w <;> simp_all [finite]

theorem addWords_finite {p : Params} {a b : Word} (ha : finite p a = true) (hb : finite p b = true) :
    addWords p a b = addFinite p a b := by
  simp [addWords, finite_not_special ha, finite_not_special hb]

theorem mulWords_finite {p : Params} {a b : Word} (ha : finite p a = true) (hb : finite p b = true) :
    mulWords p a b = mulTriples p (signOf a ^^ signOf b) (dec a) (dec b) := by
  simp [mulWords, finite_not_special ha, finite_not_special hb]

theorem divWords_finite {p : Params} {a b : Word} (ha : finite p a = true) (hb : finite p b = true)
    (h0 : classify p b ≠ .zero) :
    divWords p a b = divTriples p (signOf a ^^ signOf b) (dec a) (dec b) := by
  simp [divWords, finite_not_special ha, finite_not_special hb, h0]

/-- MUL's early underflow (44_multiplier.md R182). -/
theorem mulTriples_underflow {p : Params} {s : Bool} {x y : Triple} (h : x.E + y.E < 512) :
    mulTriples p s x y = zeroWord s := by
  unfold mulTriples
  exact if_pos (by simp only [mulExponent, BIAS]; omega)

/-- MUL's early overflow (44_multiplier.md R182). -/
theorem mulTriples_overflow {p : Params} {s : Bool} {x y : Triple} (h : 512 + eMax p < x.E + y.E) :
    mulTriples p s x y = infWord p s := by
  unfold mulTriples
  rw [if_neg (by simp only [mulExponent, BIAS]; omega)]
  exact if_pos (by simp only [mulExponent, BIAS]; omega)

/-- MUL between its early checks: the rescaled product, rounded (44_multiplier.md R183 to R185). -/
theorem mulTriples_inRange {p : Params} {s : Bool} {x y : Triple} (h1 : 512 ≤ x.E + y.E) (h2 : x.E + y.E ≤ 512 + eMax p) :
    mulTriples p s x y = finishResult p s ⟨x.E + y.E - 512, x.S * y.S / 10 ^ 15⟩ := by
  unfold mulTriples
  rw [if_neg (by simp only [mulExponent, BIAS]; omega), if_neg (by simp only [mulExponent, BIAS]; omega)]
  have he : (mulExponent x y).toNat = x.E + y.E - 512 := by simp only [mulExponent, BIAS]; omega
  simp only [he, N15]
  norm_num

/-- DIV's downward loop stops where the quotient fits and the exponent is not below the floor (45_divider.md R199). -/
theorem divDown_stop (p : Params) (n : Nat) {Q : Nat} {e : Int} (h1 : Q < 10 ^ 16) (h2 : 0 ≤ e) :
    divDown p n Q e = .fits ⟨e.toNat, Q⟩ := by
  cases n with
  | zero => rfl
  | succ n =>
    rw [divDown]
    exact if_neg (by simp only [N16]; omega)

/-- One step of DIV's downward loop, with its two exits (45_divider.md R199). -/
theorem divDown_step (p : Params) (n : Nat) {Q : Nat} {e : Int} (h : 10 ^ 16 ≤ Q ∨ e < 0) :
    divDown p (n + 1) Q e =
      if Q / 10 = 0 then .zeroExit
      else if e + 1 > eMax p then .overflowExit
      else divDown p n (Q / 10) (e + 1) := by
  rw [divDown]
  exact if_pos (by simp only [N16]; omega)

end Sys2Proof.Machine
end

