-- ==== Sys2Proof/Laws/PerInstr.lean ====
section
/-! SUPPORT. The per-instruction family RoundTrip: a well-formed operation's op value decodes to it and lies in its own row
of the op table (30_encoding.md R70, R71). -/

namespace Sys2Proof.Laws.RoundTrip

/-- What the family says of an operation. -/
def Statement (i : Instr) : Prop :=
  i.wellFormed = true → decodeOp (encode i) = i ∧ (rowOf i).covers (encode i) = true

theorem pack : Statement .pack := by unfold Statement; decide
theorem unpack : Statement .unpack := by unfold Statement; decide
theorem decode : Statement .decode := by unfold Statement; decide
theorem shift : Statement .shift := by unfold Statement; decide
theorem add : Statement .add := by unfold Statement; decide
theorem sub : Statement .sub := by unfold Statement; decide
theorem neg : Statement .neg := by unfold Statement; decide
theorem mul : Statement .mul := by unfold Statement; decide
theorem div : Statement .div := by unfold Statement; decide
theorem reserved9 : Statement .reserved9 := by unfold Statement; decide
theorem reservedAB (op : BitVec 4) : Statement (.reservedAB op) := by unfold Statement; revert op; decide
theorem reservedCF (op : BitVec 4) : Statement (.reservedCF op) := by unfold Statement; revert op; decide

end Sys2Proof.Laws.RoundTrip
end

