-- ==== Sys2Proof/Laws/Ports.lean ====
section
/-! SUPPORT. What the shared transaction shapes can do: when they complete, and what a completed one changed. -/

namespace Sys2Proof.Machine

theorem admitted_iff_no_flaw (p : Params) : admitted p = true ↔ instanceFlaw p = none := by
  simp [admitted]

@[simp] theorem whenAdmitted_of_admitted {s : State} (h : admitted s.params = true) (k : Host.Outcome State Fault Refusal) :
    whenAdmitted s k = k := by
  simp [whenAdmitted, (admitted_iff_no_flaw _).1 h]

/-- An admitted instance, or a refusal by name. -/
theorem whenAdmitted_cases (s : State) (k : Host.Outcome State Fault Refusal) :
    (admitted s.params = true ∧ whenAdmitted s k = k) ∨
    (∃ f, instanceFlaw s.params = some f ∧ whenAdmitted s k = .refused (.illegalInstance f)) := by
  cases h : instanceFlaw s.params with
  | none => exact .inl ⟨by simp [admitted, h], by simp [whenAdmitted, h]⟩
  | some f => exact .inr ⟨f, rfl, by simp [whenAdmitted, h]⟩

/-- A transaction that goes on did so on an admitted instance. -/
theorem whenAdmitted_next {s t : State} {k : Host.Outcome State Fault Refusal} (h : whenAdmitted s k = .next t) :
    admitted s.params = true ∧ k = .next t := by
  rcases whenAdmitted_cases s k with ⟨ha, hk⟩ | ⟨f, -, hk⟩
  · exact ⟨ha, hk ▸ h⟩
  · rw [hk] at h; cases h

@[simp] theorem withPort_some {α : Type} (q : InPort) (x : α) (k : α → Host.Outcome State Fault Refusal) :
    withPort q (some x) k = k x := rfl

@[simp] theorem withPort_none {α : Type} (q : InPort) (k : α → Host.Outcome State Fault Refusal) :
    withPort q none k = .refused (.undriven q) := rfl

/-- A transaction that goes on found the port driven. -/
theorem withPort_next {α : Type} {q : InPort} {v : Option α} {k : α → Host.Outcome State Fault Refusal} {t : State}
    (h : withPort q v k = .next t) : ∃ x, v = some x ∧ k x = .next t := by
  cases v with
  | none => cases h
  | some x => exact ⟨x, rfl, h⟩

theorem onA_completes {f : Word → Outputs} {s : State} {a : Word} (h : PresentsA s a) : onA f s = drive s (f a) := by
  simp [onA, h.1, h.2]

theorem onAB_completes {f : Word → Word → Word} {s : State} {a b : Word} (h : PresentsAB s a b) :
    onAB f s = .next (s.yields (f a b)) := by
  simp [onAB, h.1, h.2.1, h.2.2, drive_onY]

/-- All that a one-operand transaction can do when it goes on. -/
theorem onA_next {f : Word → Outputs} {s t : State} (h : onA f s = .next t) :
    ∃ a, PresentsA s a ∧ t = { s with out := some (f a) } := by
  obtain ⟨ha, h⟩ := whenAdmitted_next h
  obtain ⟨a, hp, h⟩ := withPort_next h
  exact ⟨a, ⟨ha, hp⟩, by cases h; rfl⟩

/-- All that a two-operand transaction can do when it goes on. -/
theorem onAB_next {f : Word → Word → Word} {s t : State} (h : onAB f s = .next t) :
    ∃ a b, PresentsAB s a b ∧ t = s.yields (f a b) := by
  obtain ⟨ha, h⟩ := whenAdmitted_next h
  obtain ⟨a, hpa, h⟩ := withPort_next h
  obtain ⟨b, hpb, h⟩ := withPort_next h
  exact ⟨a, b, ⟨ha, hpa, hpb⟩, by cases h; rfl⟩

/-- All that PACK can do when it goes on. -/
theorem execPack_next {s t : State} (h : execPack s = .next t) :
    ∃ sg E S, PresentsPack s sg E S ∧ t = s.yields (packTriple ⟨sg.getLsbD 0, E.toNat, S.toNat⟩) := by
  obtain ⟨ha, h⟩ := whenAdmitted_next h
  obtain ⟨sg, h1, h⟩ := withPort_next h
  obtain ⟨E, h2, h⟩ := withPort_next h
  obtain ⟨S, h3, h⟩ := withPort_next h
  exact ⟨sg, E, S, ⟨ha, h1, h2, h3⟩, by cases h; rfl⟩

theorem execPack_completes {s : State} {sg : BitVec 1} {E : BitVec 10} {S : BitVec 54} (h : PresentsPack s sg E S) :
    execPack s = .next (s.yields (packTriple ⟨sg.getLsbD 0, E.toNat, S.toNat⟩)) := by
  simp [execPack, h.1, h.2.1, h.2.2.1, h.2.2.2, drive_onY]

/-- All that SHIFT can do when it goes on. -/
theorem execShift_next {s t : State} (h : execShift s = .next t) :
    ∃ a n, PresentsA s a ∧ s.inp.n = some n ∧ t = s.yields (shiftWord a n) := by
  obtain ⟨ha, h⟩ := whenAdmitted_next h
  obtain ⟨a, h1, h⟩ := withPort_next h
  obtain ⟨n, h2, h⟩ := withPort_next h
  exact ⟨a, n, ⟨ha, h1⟩, h2, by cases h; rfl⟩

theorem execShift_completes {s : State} {a : Word} {n : BitVec 8} (h : PresentsA s a) (hn : s.inp.n = some n) :
    execShift s = .next (s.yields (shiftWord a n)) := by
  simp [execShift, h.1, h.2, hn, drive_onY]

/-- All that a reserved op value can do when it goes on. -/
theorem reservedTransaction_next {s t : State} (h : reservedTransaction s = .next t) :
    admitted s.params = true ∧ t = s.yields (qnan s.params) := by
  obtain ⟨ha, h⟩ := whenAdmitted_next h
  exact ⟨ha, by cases h; rfl⟩

/-- All that an operation can do when it goes on: drive the outputs (10_state.md R25, 20_memory.md R47). -/
theorem exec_next {i : Instr} {s t : State} (h : exec i s = .next t) :
    admitted s.params = true ∧ ∃ o, t = { s with out := some o } := by
  cases i with
  | pack => obtain ⟨_, _, _, hp, rfl⟩ := execPack_next h; exact ⟨hp.1, _, rfl⟩
  | unpack | decode | neg => obtain ⟨_, hp, rfl⟩ := onA_next h; exact ⟨hp.1, _, rfl⟩
  | shift => obtain ⟨_, _, hp, -, rfl⟩ := execShift_next h; exact ⟨hp.1, _, rfl⟩
  | add | sub | mul | div => obtain ⟨_, _, hp, rfl⟩ := onAB_next h; exact ⟨hp.1, _, rfl⟩
  | reserved9 | reservedAB | reservedCF => obtain ⟨ha, rfl⟩ := reservedTransaction_next h; exact ⟨ha, _, rfl⟩

/-- No operation reads what stands on the outputs (10_state.md R21). -/
theorem exec_ignores_out (i : Instr) (s : State) (o : Option Outputs) : exec i { s with out := o } = exec i s := by
  cases i <;> rfl

/-- No transaction reads what stands on the outputs. -/
theorem transaction_ignores_out (s : State) (o : Option Outputs) : transaction { s with out := o } = transaction s := by
  unfold transaction withCommand whenAdmitted withPort
  cases instanceFlaw s.params with
  | some f => rfl
  | none => cases s.inp.op <;> simp [exec_ignores_out]

/-- The outputs for the current inputs are those that the state's own transaction drives. -/
theorem outputsFor_eq (s : State) : outputsFor s.params s.inp = (nextState (transaction s)).bind State.out := by
  rw [← transaction_ignores_out s none]; rfl

/-- A completed transaction drives the outputs for the current inputs, and nothing else. -/
theorem transaction_next {s t : State} (h : transaction s = .next t) :
    ∃ o, outputsFor s.params s.inp = some o ∧ t = { s with out := some o } := by
  obtain ⟨-, h'⟩ := whenAdmitted_next h
  obtain ⟨op, -, h'⟩ := withPort_next h'
  obtain ⟨-, o, rfl⟩ := exec_next h'
  exact ⟨o, by rw [outputsFor_eq, h]; rfl, rfl⟩

/-- All that a step can do when it goes on: the operation that op names did. -/
theorem step_next {s t : State} (h : step s = .next t) :
    ∃ op, s.inp.op = some op ∧ exec (decodeOp op) s = .next t := by
  obtain ⟨-, h⟩ := whenAdmitted_next h
  exact withPort_next h

end Sys2Proof.Machine
end

