-- ==== Sys2Proof/Tests/Slice0.lean ====
section
/-! SUPPORT. The model's own tests. Expected results are those of spec/95_test_vectors.md (the vector's id stands before each
test) or are written out from the rules; the witnesses show states and operands that meet the statements' hypotheses. -/

namespace Sys2Proof.Tests

open Sys2Proof Sys2Proof.Machine

/-- SUBNORMALS = OFF. -/
def off : Params := { Params.reference with subnormals := false }

/-- SPECIALS = EXTENDED, INF_SIG_EXT at its default. -/
def ext : Params := { Params.reference with specials := .extended }

/-- Ports op, a, b and n driven, the PACK ports undriven. -/
def st (p : Params) (op : BitVec 4) (a b : Word) (n : BitVec 8 := 0) : State :=
  ⟨p, { Inputs.undriven with op := some op, a := some a, b := some b, n := some n }, some Outputs.zeros⟩

/-- Ports op, p_sign, p_exp and p_sig driven, the word ports undriven. -/
def stPack (p : Params) (s : BitVec 1) (E : BitVec 10) (S : BitVec 54) : State :=
  ⟨p, packInputs s E (some S), some Outputs.zeros⟩

/-- The outputs of one step. -/
def outs (s : State) : Option Outputs := (nextState (step s)).bind State.out

/-- y after one step on words a and b. -/
def yOf (p : Params) (op : BitVec 4) (a b : Word) : Option Word := (outs (st p op a b)).map Outputs.y

/-! ### Well-formedness: an ill-formed term for each check -/

theorem test_wf_refuses_ab : Instr.wellFormed (.reservedAB 0x9) = false ∧ Instr.wellFormed (.reservedAB 0xC) = false := by decide
theorem test_wf_refuses_cf : Instr.wellFormed (.reservedCF 0xB) = false ∧ Instr.wellFormed (.reservedCF 0x4) = false := by decide
theorem test_wf_accepts : Instr.wellFormed (.reservedAB 0xB) = true ∧ Instr.wellFormed (.reservedCF 0xC) = true := by decide

/-- Each condition of R253 refuses by its own name. -/
theorem test_illegal_parameter_sets :
    instanceFlaw { Params.reference with wordW := 32 } = some .wordWidth ∧
    instanceFlaw { Params.reference with expW := 11 } = some .exponentWidth ∧
    instanceFlaw { Params.reference with sigW := 52 } = some .significandWidth ∧
    instanceFlaw { Params.reference with bias := 511 } = some .biasValue ∧
    instanceFlaw { Params.reference with fieldSplit := .boundaryShared } = some .fieldSplitShared ∧
    instanceFlaw { ext with infSigExt := 8999999999999999 } = some .infinityField ∧
    instanceFlaw { ext with infSigExt := 9007199254740991 } = some .infinityField ∧
    instanceFlaw { Params.reference with wideW := 107 } = some .wideIntermediate := by decide

/-! ### Decoding: the op values written out bit by bit (R70, R71) -/

theorem test_decode_pack : decodeTableWord 8 0b0000 = some .pack := by decide
theorem test_decode_unpack : decodeTableWord 8 0b0001 = some .unpack := by decide
theorem test_decode_decode : decodeTableWord 8 0b0010 = some .decode := by decide
theorem test_decode_shift : decodeTableWord 8 0b0011 = some .shift := by decide
theorem test_decode_add : decodeTableWord 8 0b0100 = some .add := by decide
theorem test_decode_sub : decodeTableWord 8 0b0101 = some .sub := by decide
theorem test_decode_neg : decodeTableWord 8 0b0110 = some .neg := by decide
theorem test_decode_mul : decodeTableWord 8 0b0111 = some .mul := by decide
theorem test_decode_div : decodeTableWord 8 0b1000 = some .div := by decide
theorem test_decode_reserved9 : decodeTableWord 8 0b1001 = some .reserved9 := by decide
theorem test_decode_reservedAB : decodeTableWord 8 0b1011 = some (.reservedAB 0b1011) := by decide
theorem test_decode_reservedCF : decodeTableWord 8 0b1110 = some (.reservedCF 0b1110) := by decide
theorem test_decode_too_wide : decodeValue 0b10000 = .error (.opTooWide 16) := by rfl

/-- The command that is presented is the command that runs, as the first step after reset. -/
theorem test_fetch_runs : outs (State.reset.withFetchWord 8 0x9) = some ⟨0x7FE0000000000001, 0, 0, 0, 0⟩ := by decide

/-! ### One step each -/

/-- PV9 -/
theorem test_pack_normal : outs (stPack Params.reference 1 512 5500000000000000) = some ⟨0xC00FFCB9E57D4000, 0, 0, 0, 0⟩ := by decide
/-- PV6 -/
theorem test_pack_wraps : outs (stPack Params.reference 0 512 0) = some ⟨0x401C72815B398000, 0, 0, 0, 0⟩ := by decide
/-- KV2 -/
theorem test_unpack : outs (st Params.reference 1 0xC00FFCB9E57D4000 0) = some ⟨0, 1, 512, 4500000000000000, 2⟩ := by decide
/-- KV9 under EXTENDED -/
theorem test_unpack_extended_inf : outs (st ext 1 0x7FFFF973CAFA8000 0) = some ⟨0, 0, 1023, 9000000000000000, 3⟩ := by decide
/-- KV10 -/
theorem test_decode_nan : outs (st Params.reference 2 0x7FFFFFFFFFFFFFFF 0) = some ⟨0, 0, 1023, 10007199254740991, 4⟩ := by decide
/-- KV6 -/
theorem test_decode_subnormal : outs (st Params.reference 2 0x001FFFFFFFFFFFFF 0) = some ⟨0, 0, 0, 9007199254740991, 1⟩ := by decide
/-- HV6 -/
theorem test_shift_right_16 : outs (st Params.reference 3 0xFFFFFFFFFFFFFFFF 0 0xF0) = some ⟨0, 0, 0, 0, 0⟩ := by decide
/-- HV9 -/
theorem test_shift_left_wraps : outs (st Params.reference 3 1 0 0x14) = some ⟨0x6BC75E2D63100000, 0, 0, 0, 0⟩ := by decide
/-- AV16 -/
theorem test_add_guard_and_carry : yOf Params.reference 4 0x0021C6BF52634000 0x8000000000000001 = some 0x0021C6BF52633FFF := by decide
/-- AV11, and with SUBNORMALS = OFF -/
theorem test_add_gap : yOf Params.reference 4 0x0011C37937E08000 0x000FFCB9E57D4000 = some 0x001FFFFFFFFFFFFF ∧
    yOf off 4 0x0011C37937E08000 0x000FFCB9E57D4000 = some 0 := by decide
/-- SB9 -/
theorem test_sub_guard : yOf Params.reference 5 0x4000000000000000 0x3E00000000000000 = some 0x3FFFF973CAFA7FFF := by decide
/-- SB8 -/
theorem test_sub_overflows : yOf Params.reference 5 0xFFDFF973CAFA7FFF 0x7FDFF973CAFA7FFF = some 0xFFE0000000000000 := by decide
/-- NG4 -/
theorem test_neg_keeps_nan : yOf Params.reference 6 0x7FE0000000000001 0 = some 0xFFE0000000000001 := by decide
/-- MV7 -/
theorem test_mul_early_underflow : yOf Params.reference 7 0x1FEE35FA931A0000 0x20038D7EA4C68000 = some 0 := by decide
/-- MV9 -/
theorem test_mul_carry_from_floor : yOf Params.reference 7 0x20038D7EA4C68000 0x200E35FA931A0000 = some 0x0020000000000000 := by decide
/-- DV1 -/
theorem test_div_truncates : yOf Params.reference 8 0x4000000000000000 0x40071AFD498D0000 = some 0x3FE84A278079D552 := by decide
/-- DV23 -/
theorem test_div_below_floor : yOf Params.reference 8 0x0180000000000000 0x4280000000000000 = some 0x0000000000989680 := by decide
/-- XV2 -/
theorem test_reservedCF_extended : outs (st ext 0xF 0 0) = some ⟨0x7FFFF973CAFA8001, 0, 0, 0, 0⟩ := by decide
/-- XV1's rule for the other two reserved rows -/
theorem test_reservedAB : outs (st Params.reference 0xA 0 0) = some ⟨0x7FE0000000000001, 0, 0, 0, 0⟩ := by decide

/-- An undriven operand port is named (R259). -/
theorem test_undriven : step (stPack Params.reference 0 0 0 |>.withFetchWord 8 4) = .refused (.undriven .a) := by rfl

/-- SV2's rendering. -/
theorem test_render : fmt Params.reference 0xC00FFCB9E57D4000 =
    ['-', '5', '.', '5', '0', '0', '0', '0', '0', '0', '0', '0', '0', '0', '0', '0', '0', '0', 'e', '+', '0'] := by decide

/-- P4's lines 1 and 2: a value shifted into place, then packed. -/
theorem test_script_shift_then_pack :
    runScript [.shift 1 (.lit 123) 13, .pack 2 0 514 (.slot 1)] (Session.start State.reset) =
      .next ⟨(stPack Params.reference 0 514 1230000000000000).yields 0x4040D12F0C4C6000,
        [(2, 0x4040D12F0C4C6000), (1, 0x00045EADB112E000)], none⟩ := by rfl

/-! ### Witnesses: each meets the hypotheses of the statement it is named after, clause by clause -/

theorem presentsAB_st {p : Params} (h : admitted p = true) (op : BitVec 4) (a b : Word) : PresentsAB (st p op a b) a b :=
  ⟨h, rfl, rfl⟩

theorem presentsA_st {p : Params} (h : admitted p = true) (op : BitVec 4) (a b : Word) (n : BitVec 8) :
    PresentsA (st p op a b n) a := ⟨h, rfl⟩

theorem presentsPack_st {p : Params} (h : admitted p = true) (s : BitVec 1) (E : BitVec 10) (S : BitVec 54) :
    PresentsPack (stPack p s E S) s E S := ⟨h, rfl, rfl, rfl⟩

theorem admitted_reference : admitted Params.reference = true := by decide
theorem admitted_off : admitted off = true := by decide
theorem admitted_ext : admitted ext = true := by decide

theorem witness_OpDecodeEncodeAgree : Instr.wellFormed (.reservedAB 0xA) = true ∧ Instr.wellFormed (.reservedCF 0xF) = true := by decide
theorem witness_StepRunsDecodedOperation : (st Params.reference 0xF 0 0).inp.op = some 0xF ∧ 15 < 16 := by decide
theorem witness_OpValuesSelectOperations : decodeTableWord 8 0xA = some (.reservedAB 0xA) ∧ decodeTableWord 8 0xC = some (.reservedCF 0xC) ∧
    decodeTableWord 8 0xF = some (.reservedCF 0xF) := by decide
theorem witness_OversizedCommandSelectsNothing : 0x10 ≤ 0x10 ∧ admitted State.reset.params = true := by decide
theorem witness_OnlyLegalInstancesRun : admitted { ext with infSigExt := 2 ^ 53 - 2, wideW := 108 } = true ∧
    admitted { ext with infSigExt := 2 ^ 53 - 1 } = false ∧
    admitted (st { Params.reference with wideW := 107 } 0 0 0).params = false := by decide
theorem witness_UndrivenPortsRefusedByName :
    admitted Params.reference = true ∧ (State.reset.withFetchWord 8 16).inp.op = none ∧
    (∃ q ∈ operandPorts .shift, Inputs.driven { Inputs.zeros with n := none } q = false) ∧
    (∃ q ∈ operandPorts .pack, Inputs.driven { Inputs.zeros with pExp := none } q = false) ∧
    (∃ q ∈ operandPorts .add, Inputs.driven { Inputs.zeros with b := none } q = false) ∧
    (∃ q ∈ operandPorts .neg, Inputs.driven { Inputs.zeros with a := none } q = false) ∧
    (∀ q ∈ operandPorts .neg, (st Params.reference 6 5 0).inp.same (st Params.reference 4 5 9).inp q = true) ∧
    (∀ q ∈ operandPorts .pack, (stPack Params.reference 1 2 3).inp.same { (stPack Params.reference 1 2 3).inp with a := some 7 } q = true) := by
  decide
theorem witness_TransactionCompletesIffReady : ready (st Params.reference 8 5 0) = true ∧ ready (stPack Params.reference 0 0 0) = true ∧
    ready (State.reset.withFetchWord 8 16) = false := by decide
theorem witness_ReadyRunNeverStops : ready State.reset = true := by decide
theorem witness_TransactionHasNoSideEffect :
    step State.reset = .next State.reset ∧ exec .unpack (st Params.reference 1 0 0) = .next (st Params.reference 1 0 0) := ⟨rfl, rfl⟩
theorem witness_UnnamedOutputsAreZero :
    exec .decode (st Params.reference 2 0x4000000000000000 0) =
      .next ((st Params.reference 2 0x4000000000000000 0).yieldsFields 0 512 1000000000000000 2) ∧
    exec .neg (st Params.reference 6 0 0) = .next ((st Params.reference 6 0 0).yields 0x8000000000000000) := ⟨rfl, rfl⟩
theorem witness_SentinelWords : admitted ext = true ∧ admitted { ext with infSigExt := 2 ^ 53 - 2 } = true := by decide
theorem witness_ClassFromFields :
    classify Params.reference 0x8000000000000000 = .zero ∧ classify Params.reference 0x001FFFFFFFFFFFFF = .subnormal ∧
    classify Params.reference 0x7FDFF973CAFA7FFF = .normal ∧ classify ext 0x7FFFF973CAFA7FFF = .normal ∧
    classify ext 0x7FFFF973CAFA8000 = .inf ∧ classify ext 0x7FFFF973CAFA8001 = .nan ∧
    classify Params.reference 0x003FF973CAFA8000 = .nan ∧ classify Params.reference 0x7FE0000000000001 = .nan := by decide
theorem witness_ClassIgnoresSignAndSubnormals : off.specials = Params.reference.specials ∧
    { ext with subnormals := false }.infSigExt = ext.infSigExt := by decide
theorem witness_FiniteOperandBounds :
    finite Params.reference 0x001FFFFFFFFFFFFF = true ∧ finite Params.reference 0x003FF973CAFA7FFF = true ∧
    finite ext 0x7FFFF973CAFA7FFF = true ∧ finite Params.reference 0 = true := by decide
theorem witness_FiniteValuesHaveOneEncoding :
    finite Params.reference 0x4000000000000000 = true ∧ signOf 0x4000000000000000#64 = signOf 0x4000000000000000#64 ∧
    value 0x4000000000000000#64 = value 0x4000000000000000#64 := ⟨by decide, rfl, rfl⟩
theorem witness_PackPlacesFields : PresentsPack (stPack off 1 0 9007199254740992) 1 0 9007199254740992 ∧
    PresentsPack (stPack ext 0 1 0) 0 1 0 ∧ (1#10) ≠ 0 :=
  ⟨presentsPack_st admitted_off _ _ _, presentsPack_st admitted_ext _ _ _, by decide⟩
theorem witness_UnpackSplitsFields : PresentsA (st ext 1 0xFFFFFFFFFFFFFFFF 0) 0xFFFFFFFFFFFFFFFF :=
  presentsA_st admitted_ext _ _ _ _
theorem witness_DecodeRestoresLeadingDigit :
    PresentsA (st ext 2 0x001FFFFFFFFFFFFF 0) 0x001FFFFFFFFFFFFF ∧ 0x001FFFFFFFFFFFFF / 2 ^ 53 % 2 ^ 10 = 0 ∧
    PresentsA (st ext 2 0x0020000000000000 0) 0x0020000000000000 ∧ 0x0020000000000000 / 2 ^ 53 % 2 ^ 10 ≠ 0 :=
  ⟨presentsA_st admitted_ext _ _ _ _, by decide, presentsA_st admitted_ext _ _ _ _, by decide⟩
theorem witness_ClassCodesAreFixed : step (st Params.reference 1 0x7FE0000000000001 0) =
    .next ((st Params.reference 1 0x7FE0000000000001 0).yieldsFields 0 1023 1 4) := by rfl
theorem witness_UnpackInvertsPlacement :
    PresentsA (st ext 1 (packFields true 1023 9007199254740991) 0) (packFields true 1023 9007199254740991) ∧
    1023 < 2 ^ 10 ∧ 9007199254740991 < 2 ^ 53 ∧ PresentsPack (stPack off 1 1 10007199254740991) 1 1 10007199254740991 ∧
    10 ^ 15 ≤ (10007199254740991#54).toNat ∧ (10007199254740991#54).toNat ≤ 10 ^ 15 + (2 ^ 53 - 1) :=
  ⟨presentsA_st admitted_ext _ _ _ _, by decide, by decide, presentsPack_st admitted_off _ _ _, by decide, by decide⟩
theorem witness_PackAndDecodeRoundTrip :
    PresentsA (st ext 2 0x7FE0000000000001 0) 0x7FE0000000000001 ∧
    PresentsPack (stPack off 1 0 9007199254740991) 1 0 9007199254740991 ∧ (9007199254740991#54).toNat ≤ 2 ^ 53 - 1 ∧
    PresentsPack (stPack off 1 1023 1000000000000000) 1 1023 1000000000000000 ∧ 10 ^ 15 ≤ (1000000000000000#54).toNat :=
  ⟨presentsA_st admitted_ext _ _ _ _, presentsPack_st admitted_off _ _ _, by decide, presentsPack_st admitted_off _ _ _, by decide⟩
theorem witness_ShiftMovesDigits :
    (PresentsA (st off 3 5 0 0x80) 5 ∧ (st off 3 5 0 0x80).inp.n = some 0x80) ∧
    (0x80#8).toInt ≤ -16 ∧ (0xF0#8).toInt ≤ -16 ∧ -15 ≤ (0xF1#8).toInt ∧ (0xFF#8).toInt < 0 ∧ 0 ≤ (0x00#8).toInt ∧
    0 ≤ (0x7F#8).toInt := ⟨⟨presentsA_st admitted_off _ _ _ _, rfl⟩, by decide⟩
theorem witness_DigitShiftIsExactDivision :
    2 ^ 64 - 1 < 2 ^ 64 ∧ 0 < 15 ∧ 10 ^ 16 - 1 < 10 ^ 16 ∧ 16 ≤ 16 ∧ 1 * 10 ^ 19 < 2 ^ 64 := by decide
theorem witness_AddSpecialOperands :
    PresentsAB (st ext 4 0x7FFFF973CAFA8000 0) 0x7FFFF973CAFA8000 0 ∧
    classify Params.reference 0xFFF0000000000000 = .nan ∧ classify Params.reference 0x7FE0000000000000 = .inf ∧
    classify Params.reference 0xFFE0000000000000 = .inf ∧ signOf 0x7FE0000000000000#64 ≠ signOf 0xFFE0000000000000#64 ∧
    finite Params.reference 0x7FDFF973CAFA7FFF = true :=
  ⟨presentsAB_st admitted_ext _ _ _, by decide, by decide, by decide, by decide, by decide⟩
/-- Same signs with a carry at E_MAX; different signs with the first, the second and neither significand larger. -/
theorem witness_AddEqualExponents :
    PresentsAB (st off 4 0x7FDFF973CAFA7FFF 0x7FDFF973CAFA7FFF) 0x7FDFF973CAFA7FFF 0x7FDFF973CAFA7FFF ∧
    finite off 0x7FDFF973CAFA7FFF = true ∧ finite off 0x0020000000000001 = true ∧ finite off 0x8020000000000000 = true ∧
    (dec 0x0020000000000001).E = (dec 0x8020000000000000).E ∧ signOf 0x0020000000000001#64 ≠ signOf 0x8020000000000000#64 ∧
    (dec 0x8020000000000000).S < (dec 0x0020000000000001).S ∧ (dec 0x8020000000000001).S = (dec 0x0020000000000001).S :=
  ⟨presentsAB_st admitted_off _ _ _, by decide, by decide, by decide, by decide, by decide, by decide, by decide⟩
/-- The guard's boundary at E = 1: S just below 2 x 10^15, and exactly there. -/
theorem witness_AddUnequalExponents :
    PresentsAB (st off 4 0x0021C6BF52634000 0x8000000000000001) 0x0021C6BF52634000 0x8000000000000001 ∧
    finite off 0x0021C6BF52634000 = true ∧ finite off 0x8000000000000001 = true ∧ finite off 0x00238D7EA4C67FFF = true ∧
    (dec 0x8000000000000001).E < (dec 0x0021C6BF52634000).E ∧ (dec 0x00238D7EA4C67FFF).S < 2 * 10 ^ 15 ∧
    2 * 10 ^ 15 ≤ (dec 0x00238D7EA4C68000).S ∧ signOf 0x0021C6BF52634000#64 ≠ signOf 0x8000000000000001#64 :=
  ⟨presentsAB_st admitted_off _ _ _, by decide, by decide, by decide, by decide, by decide, by decide, by decide⟩
theorem witness_AdderLargeSideWins : admitted ext = true ∧ finite ext 0x0020000000000000 = true ∧ finite ext 0x001FFFFFFFFFFFFF = true ∧
    (dec 0x001FFFFFFFFFFFFF).E < (dec 0x0020000000000000).E ∧ (dec 0x0020000000000000).S < 2 * 10 ^ 15 := by decide
theorem witness_AddIsCommutative : PresentsAB (st ext 4 1 0) 1 0 ∧ PresentsAB (st ext 4 0 1) 0 1 ∧
    (st ext 4 1 0).params = (st ext 4 0 1).params := ⟨presentsAB_st admitted_ext _ _ _, presentsAB_st admitted_ext _ _ _, rfl⟩
theorem witness_AddZeroIsIdentity : PresentsAB (st off 4 1 0x8000000000000000) 1 0x8000000000000000 ∧
    classify off 0x8000000000000000 = .zero ∧ finite off 1 = true ∧ classify off 1 = .subnormal ∧
    classify off 0x0020000000000000 = .normal ∧ classify off 0 = .zero :=
  ⟨presentsAB_st admitted_off _ _ _, by decide, by decide, by decide, by decide, by decide⟩
theorem witness_NegFlipsSignBit : PresentsA (st ext 6 0x7FE0000000000001 0) 0x7FE0000000000001 := presentsA_st admitted_ext _ _ _ _
theorem witness_SubIsAddOfNegated : PresentsAB (st ext 5 1 2) 1 2 := presentsAB_st admitted_ext _ _ _
theorem witness_SubSelfIsPositiveZero : PresentsAB (st off 5 1 1) 1 1 ∧ finite off 1 = true ∧ finite off 0x7FE0000000000000 = false :=
  ⟨presentsAB_st admitted_off _ _ _, by decide, by decide⟩
theorem witness_MulSpecialOperands : PresentsAB (st off 7 0x7FE0000000000000 0) 0x7FE0000000000000 0 ∧
    classify off 0x7FE0000000000000 = .inf ∧ classify off 0 = .zero ∧ classify off 0x7FE0000000000001 = .nan ∧
    classify off 1 ≠ .nan ∧ classify off 1 ≠ .zero ∧ classify off 0x7FE0000000000000 ≠ .zero :=
  ⟨presentsAB_st admitted_off _ _ _, by decide, by decide, by decide, by decide, by decide, by decide⟩
/-- The exponent sums 511, 512, 512 + E_MAX and 513 + E_MAX. -/
theorem witness_MulFiniteProduct :
    PresentsAB (st off 7 0x1FEE35FA931A0000 0x20038D7EA4C68000) 0x1FEE35FA931A0000 0x20038D7EA4C68000 ∧
    finite off 0x1FEE35FA931A0000 = true ∧ finite off 0x20038D7EA4C68000 = true ∧
    (dec 0x1FEE35FA931A0000).E + (dec 0x20038D7EA4C68000).E = 511 ∧
    (dec 0x20038D7EA4C68000).E + (dec 0x20038D7EA4C68000).E = 512 ∧
    (dec 0x7FDFF973CAFA7FFF).E + (dec 0x4000000000000000).E = 512 + eMax off ∧
    (dec 0x7FDFF973CAFA7FFF).E + (dec 0x4020000000000000).E = 513 + eMax off :=
  ⟨presentsAB_st admitted_off _ _ _, by decide, by decide, by decide, by decide, by decide, by decide⟩
theorem witness_MulIsCommutative : PresentsAB (st ext 7 1 0) 1 0 ∧ PresentsAB (st ext 7 0 1) 0 1 ∧
    (st ext 7 1 0).params = (st ext 7 0 1).params := ⟨presentsAB_st admitted_ext _ _ _, presentsAB_st admitted_ext _ _ _, rfl⟩
theorem witness_MulByOneIsIdentity : PresentsAB (st off 7 1 0x4000000000000000) 1 0x4000000000000000 ∧ classify off 1 = .subnormal ∧
    classify off 0x0020000000000000 = .normal := ⟨presentsAB_st admitted_off _ _ _, by decide, by decide⟩
theorem witness_MulOverflowBoundary :
    PresentsAB (st off 7 0x7FDFF973CAFA7FFF 0xC000000000000001) 0x7FDFF973CAFA7FFF 0xC000000000000001 ∧
    (0x7FDFF973CAFA7FFF#64).toNat = eMax off * 2 ^ 53 + (9 * 10 ^ 15 - 1) ∧ finite off 0xC000000000000001 = true ∧
    1 < |value 0xC000000000000001#64| := by
  refine ⟨presentsAB_st admitted_off _ _ _, by decide, by decide, ?_⟩
  have h : dec 0xC000000000000001#64 = ⟨true, 512, 1000000000000001⟩ := by decide
  norm_num [value, h]
theorem witness_MulTruncatesExactProduct :
    PresentsAB (st off 7 0x4000000000000001 0x4000000000000001) 0x4000000000000001 0x4000000000000001 ∧
    classify off 0x4000000000000001 = .normal ∧ classify off (mulWords off 0x4000000000000001 0x4000000000000001) = .normal :=
  ⟨presentsAB_st admitted_off _ _ _, by decide, by decide⟩
theorem witness_DivSpecialOperands : PresentsAB (st off 8 0x7FE0000000000000 0) 0x7FE0000000000000 0 ∧
    classify off 0x7FE0000000000000 = .inf ∧ classify off 0x8000000000000000 = .zero ∧ classify off 0x7FE0000000000001 = .nan ∧
    finite off 1 = true ∧ classify off 1 ≠ .zero :=
  ⟨presentsAB_st admitted_off _ _ _, by decide, by decide, by decide, by decide, by decide⟩
/-- DV1 (no downward step), DV21 (the zero exit), DV12 (the overflow exit), DV23 (a downward step that fits). -/
theorem witness_DivFiniteQuotient :
    PresentsAB (st off 8 0x4000000000000000 1) 0x4000000000000000 1 ∧ finite off 0x4000000000000000 = true ∧
    finite off 1 = true ∧ classify off 1 ≠ .zero ∧
    divDown off 31 333333333333333 512 = .fits ⟨512, 333333333333333⟩ ∧ divDown off 31 1000000000000000 (-88) = .zeroExit ∧
    divDown off 31 (10 ^ 30) 1024 = .overflowExit ∧ divDown off 31 1000000000000000 (-8) = .fits ⟨0, 10000000⟩ :=
  ⟨presentsAB_st admitted_off _ _ _, by decide, by decide, by decide, by decide, by decide, by decide, by decide⟩
theorem witness_DivLoopEndsWithin31Steps : 10 ^ 31 - 1 < 10 ^ 31 ∧ divDown Params.reference 31 (10 ^ 31 - 1) 0 =
    .fits ⟨15, 9999999999999999⟩ := by decide
theorem witness_DivSelfIsOne : PresentsAB (st off 8 1 1) 1 1 ∧ finite off 1 = true ∧ classify off 1 ≠ .zero :=
  ⟨presentsAB_st admitted_off _ _ _, by decide, by decide⟩
theorem witness_DivByOneIsIdentity : PresentsAB (st off 8 0x0020000000000000 0x4000000000000000) 0x0020000000000000 0x4000000000000000 ∧
    classify off 0x0020000000000000 = .normal := ⟨presentsAB_st admitted_off _ _ _, by decide⟩
theorem witness_DivTruncatesExactQuotient :
    PresentsAB (st off 8 0x4000000000000000 0x40071AFD498D0000) 0x4000000000000000 0x40071AFD498D0000 ∧
    classify off 0x4000000000000000 = .normal ∧ classify off 0x40071AFD498D0000 = .normal ∧
    classify off (divWords off 0x4000000000000000 0x40071AFD498D0000) = .normal ∧
    PresentsAB (st off 8 0x40071AFD498D0000 0x4000000000000000) 0x40071AFD498D0000 0x4000000000000000 ∧
    (dec 0x4000000000000000).S ≤ (dec 0x40071AFD498D0000).S ∧
    classify off (divWords off 0x40071AFD498D0000 0x4000000000000000) = .normal :=
  ⟨presentsAB_st admitted_off _ _ _, by decide, by decide, by decide, presentsAB_st admitted_off _ _ _, by decide, by decide⟩
theorem witness_ReservedOpsGiveQnan : admitted ext = true ∧ 9 ≤ (9#4).toNat ∧ (st ext 9 0 0).inp.op = some 9 := by decide
theorem witness_PackResultClass : admitted ext = true ∧ 10 ^ 16 - 1 ≤ 10 ^ 16 - 1 ∧ 1024 > eMax ext ∧ 1023 ≤ eMax ext ∧
    off.subnormals = false ∧ ext.subnormals = true := by decide
theorem witness_EveryStepKeepsOutputDiscipline : step (st ext 0xC 0 0) = .next ((st ext 0xC 0 0).yields (qnan ext)) := by rfl
/-- The corners of MAKE's domain, and one step outside it. -/
theorem witness_MakeBuildsNormalWord : admitted (Session.start State.reset).block.params = true ∧
    makeDomain Params.reference (-9) 999999999999999 510 = true ∧ makeDomain Params.reference 1 0 (-511) = true ∧
    makeDomain Params.reference 0 0 0 = false ∧ makeDomain Params.reference 1 0 511 = false ∧ makeDomain ext 1 0 511 = true := by
  decide
theorem witness_RenderingIsExact : admitted off = true ∧ finite off 0 = true ∧ finite off 0x7FDFF973CAFA7FFF = true ∧
    finite off 0x4000000000000000 = true := by decide
theorem witness_WrapperOutputsAfterLatency : ready (st ext 8 5 0) = true ∧ 2 < 3 ∧ 3 ≤ 3 := by decide

/-- A command presented after another transaction: nothing of that one is left, and a refused one leaves the outputs open (R250). -/
theorem test_outputs_follow_presentation :
    ((st Params.reference 2 0x4000000000000000 0).withFetchWord 8 6).out = some ⟨0xC000000000000000, 0, 0, 0, 0⟩ ∧
    ((st Params.reference 2 0x4000000000000000 0).withFetchWord 8 0).out = none := by decide
theorem witness_OutputsFollowInputs : OutputsFollow State.reset ∧ step (st ext 0xC 0 0) = .next ((st ext 0xC 0 0).yields (qnan ext)) ∧
    resetInput (st Params.reference 2 0x4000000000000000 0) ≠ st Params.reference 2 0x4000000000000000 0 := ⟨rfl, rfl, by decide⟩
theorem witness_NoEarlierValueAppears :
    ready (State.reset.present (st off 6 1 0).inp) = true ∧ ready (State.reset.present Inputs.undriven) = false ∧
    ready ((st { Params.reference with bias := 511 } 6 1 0).present (st off 6 1 0).inp) = false ∧
    (st off 6 1 0).params = ((st off 4 2 3).present (st off 6 1 0).inp).params ∧
    (st off 6 1 0).inp = ((st off 4 2 3).present (st off 6 1 0).inp).inp ∧
    (st off 6 1 0).out ≠ ((st off 4 2 3).present (st off 6 1 0).inp).out := by decide

end Sys2Proof.Tests
end

section
/-! PROOFS of the scope statements: the width of the multiply and divide intermediates (00_scope.md R8), and the
configuration at reset (00_scope.md R2). -/

namespace Sys2Proof.Machine

/-- A decoded significand is a field below 2^53 with at most the leading digit 10^15 restored (41_decoder.md R120). -/
theorem dec_S_lt (w : Word) : (dec w).S < 2 ^ 53 + 10 ^ 15 := by
  have hF := sigField_lt w
  simp only [dec, N15]
  split <;> omega

/-- A decoded significand fits the 54 bits of the p_sig and u_sig ports (00_scope.md R8). -/
theorem dec_S_lt_two_pow (w : Word) : (dec w).S < 2 ^ 54 := by
  have h := dec_S_lt w
  omega

/-- The product of two decoded significands fits 108 bits (00_scope.md R8). -/
theorem dec_S_mul_dec_S_lt (a b : Word) : (dec a).S * (dec b).S < 2 ^ 108 :=
  calc (dec a).S * (dec b).S < 2 ^ 54 * 2 ^ 54 := Nat.mul_lt_mul'' (dec_S_lt_two_pow a) (dec_S_lt_two_pow b)
    _ = 2 ^ 108 := by norm_num

/-- A dividend scaled by 10^15 fits 104 bits (00_scope.md R8). -/
theorem dec_S_scaled_lt (a : Word) : (dec a).S * 10 ^ 15 < 2 ^ 104 := by
  have h := dec_S_lt a
  omega

/-- The last condition of 70_reset_and_hazards.md R253: the wide intermediate of an admitted instance has at least 108 bits. -/
theorem wideW_ge_of_admitted {p : Params} (h : admitted p = true) : 108 ≤ p.wideW := by
  rw [admitted_iff_no_flaw] at h
  by_contra hc
  have hw : p.wideW < 108 := by omega
  unfold instanceFlaw at h
  split_ifs at h

/-- The intermediate of an admitted instance truncates nothing that R8's bound admits (00_scope.md R8 with
70_reset_and_hazards.md R253). -/
theorem mod_two_pow_wideW {p : Params} (h : admitted p = true) {x : Nat} (hx : x < 2 ^ 108) : x % 2 ^ p.wideW = x :=
  Nat.mod_eq_of_lt (hx.trans_le (Nat.pow_le_pow_right (by decide) (wideW_ge_of_admitted h)))

/-- Settles O18, from the bound on a decoded significand and R253's bound on WIDE_W. -/
theorem intermediatesFitWideWidth : Obligations.IntermediatesFitWideWidth := by
  refine ⟨dec_S_lt_two_pow, fun a b => ⟨dec_S_mul_dec_S_lt a b, dec_S_scaled_lt a⟩, fun p a b hp => ⟨?_, ?_⟩⟩
  · exact mod_two_pow_wideW hp (dec_S_mul_dec_S_lt a b)
  · exact mod_two_pow_wideW hp ((dec_S_scaled_lt a).trans (by norm_num))

/-- Settles O13, by evaluating the reset state: only its instance's admission needs R253's conditions. -/
theorem resetIsReferenceConfiguration : Obligations.ResetIsReferenceConfiguration := by
  have hadmitted : admitted State.reset.params = true := by decide
  exact ⟨hadmitted, rfl, rfl, rfl, rfl, rfl, rfl⟩

end Sys2Proof.Machine
end

section
/-! PROOFS of the state statements: when a transaction completes (10_state.md R25, 70_reset_and_hazards.md R253, R259),
and which operation a step runs (10_state.md R28). -/

namespace Sys2Proof.Machine

theorem whenAdmitted_idem (s : State) (k : Host.Outcome State Fault Refusal) :
    whenAdmitted s (whenAdmitted s k) = whenAdmitted s k := by
  obtain ⟨-, hk⟩ | ⟨f, hf, -⟩ := whenAdmitted_cases s k
  · rw [hk, hk]
  · simp [whenAdmitted, hf]

/-- Every operation checks the instance itself, so checking it before changes nothing (70_reset_and_hazards.md R253). -/
theorem whenAdmitted_exec (i : Instr) (s : State) : whenAdmitted s (exec i s) = exec i s := by
  cases i <;> exact whenAdmitted_idem s _

theorem step_of_op {s : State} {op : BitVec 4} (h : s.inp.op = some op) : step s = exec (decodeOp op) s := by
  show whenAdmitted s (withPort .op s.inp.op fun op => exec (decodeOp op) s) = _
  rw [h, withPort_some, whenAdmitted_exec]

theorem step_of_op_undriven {s : State} (ha : admitted s.params = true) (h : s.inp.op = none) :
    step s = .refused (.undriven .op) := by
  show whenAdmitted s (withPort .op s.inp.op fun op => exec (decodeOp op) s) = _
  rw [h, withPort_none, whenAdmitted_of_admitted ha]

theorem decodeTableWord_of_ge (n : Nat) {w : Nat} (h : 16 ≤ w) : decodeTableWord n w = none := by
  have hlt : ¬ w < 16 := not_lt.2 h
  simp [decodeTableWord, decodeValue, hlt]

/-- Presenting a command changes the op port, and the outputs that follow from it (entry 5). -/
theorem exec_withFetchWord (i : Instr) (s : State) (n w : Nat) : exec i (s.withFetchWord n w) =
    exec i { s with inp := { s.inp with op := if w < 16 then some (BitVec.ofNat 4 w) else none } } :=
  exec_ignores_out i { s with inp := { s.inp with op := if w < 16 then some (BitVec.ofNat 4 w) else none } } _

/-- Settles O2: the number is no command, and the op port that it leaves undriven is the one that the step names. -/
theorem oversizedCommandSelectsNothing : Obligations.OversizedCommandSelectsNothing := by
  intro s n w hw
  have hop : (s.withFetchWord n w).inp.op = none := by simp [hw]
  exact ⟨decodeTableWord_of_ge n hw, fun ha => step_of_op_undriven ha hop⟩

/-- Settles O5: the step's own check of the instance is repeated by every operation, and no operation reads the outputs. -/
theorem stepRunsDecodedOperation : Obligations.StepRunsDecodedOperation := by
  refine ⟨fun s op h => step_of_op h, fun s n w hw => ?_⟩
  have hop : (s.withFetchWord n w).inp.op = some (BitVec.ofNat 4 w) := by simp [hw]
  rw [step_of_op hop, exec_withFetchWord, if_pos hw]

/-! ### When the transaction shapes complete -/

theorem onA_completes_iff (f : Word → Outputs) (s : State) : (∃ t, onA f s = .next t) ↔ ∃ a, PresentsA s a :=
  ⟨fun ⟨_, h⟩ => (onA_next h).imp fun _ h => h.1, fun ⟨_, h⟩ => ⟨_, onA_completes h⟩⟩

theorem onAB_completes_iff (f : Word → Word → Word) (s : State) :
    (∃ t, onAB f s = .next t) ↔ ∃ a b, PresentsAB s a b := by
  constructor
  · rintro ⟨t, h⟩
    obtain ⟨a, b, hp, -⟩ := onAB_next h
    exact ⟨a, b, hp⟩
  · rintro ⟨a, b, hp⟩
    exact ⟨_, onAB_completes hp⟩

theorem execPack_completes_iff (s : State) : (∃ t, execPack s = .next t) ↔ ∃ sg E S, PresentsPack s sg E S := by
  constructor
  · rintro ⟨t, h⟩
    obtain ⟨sg, E, S, hp, -⟩ := execPack_next h
    exact ⟨sg, E, S, hp⟩
  · rintro ⟨sg, E, S, hp⟩
    exact ⟨_, execPack_completes hp⟩

theorem execShift_completes_iff (s : State) :
    (∃ t, execShift s = .next t) ↔ ∃ a n, PresentsA s a ∧ s.inp.n = some n := by
  constructor
  · rintro ⟨t, h⟩
    obtain ⟨a, n, hp, hn, -⟩ := execShift_next h
    exact ⟨a, n, hp, hn⟩
  · rintro ⟨a, n, hp, hn⟩
    exact ⟨_, execShift_completes hp hn⟩

theorem reservedTransaction_completes_iff (s : State) :
    (∃ t, reservedTransaction s = .next t) ↔ admitted s.params = true := by
  constructor
  · rintro ⟨t, h⟩
    exact (reservedTransaction_next h).1
  · intro ha
    exact ⟨s.yields (qnan s.params), whenAdmitted_of_admitted ha _⟩

/-! ### Readiness: an admitted instance and driven operand ports -/

theorem readyFor_iff_presentsA {i : Instr} (hi : operandPorts i = [.a]) (s : State) :
    readyFor i s = true ↔ ∃ a, PresentsA s a := by
  simp [readyFor, hi, Inputs.driven, PresentsA, Option.isSome_iff_exists]

theorem readyFor_iff_presentsAB {i : Instr} (hi : operandPorts i = [.a, .b]) (s : State) :
    readyFor i s = true ↔ ∃ a b, PresentsAB s a b := by
  simp [readyFor, hi, Inputs.driven, PresentsAB, Option.isSome_iff_exists]

theorem readyFor_pack_iff (s : State) : readyFor .pack s = true ↔ ∃ sg E S, PresentsPack s sg E S := by
  simp [readyFor, operandPorts, Inputs.driven, PresentsPack, Option.isSome_iff_exists]

theorem readyFor_shift_iff (s : State) :
    readyFor .shift s = true ↔ ∃ a n, PresentsA s a ∧ s.inp.n = some n := by
  simp [readyFor, operandPorts, Inputs.driven, PresentsA, Option.isSome_iff_exists, and_assoc]

theorem readyFor_iff_admitted {i : Instr} (hi : operandPorts i = []) (s : State) :
    readyFor i s = true ↔ admitted s.params = true := by
  simp [readyFor, hi]

/-- An operation completes exactly when the instance is admitted and its operand ports are driven (10_state.md R25,
70_reset_and_hazards.md R253, R259). -/
theorem exec_completes_iff (i : Instr) (s : State) : (∃ t, exec i s = .next t) ↔ readyFor i s = true := by
  cases i with
  | pack => exact (execPack_completes_iff s).trans (readyFor_pack_iff s).symm
  | unpack | decode | neg => exact (onA_completes_iff _ s).trans (readyFor_iff_presentsA rfl s).symm
  | shift => exact (execShift_completes_iff s).trans (readyFor_shift_iff s).symm
  | add | sub | mul | div => exact (onAB_completes_iff _ s).trans (readyFor_iff_presentsAB rfl s).symm
  | reserved9 | reservedAB | reservedCF =>
    exact (reservedTransaction_completes_iff s).trans (readyFor_iff_admitted rfl s).symm

theorem ready_of_op {s : State} {op : BitVec 4} (h : s.inp.op = some op) : ready s = readyFor (decodeOp op) s := by
  simp [ready, h]

theorem ready_of_op_undriven {s : State} (h : s.inp.op = none) : ready s = false := by
  simp [ready, h]

theorem step_completes_iff_ready (s : State) : (∃ t, step s = .next t) ↔ ready s = true := by
  cases hop : s.inp.op with
  | some op => rw [step_of_op hop, ready_of_op hop, exec_completes_iff]
  | none =>
    rw [ready_of_op_undriven hop]
    refine iff_of_false (fun ⟨t, h⟩ => ?_) Bool.false_ne_true
    obtain ⟨op, hsome, -⟩ := step_next h
    simp [hop] at hsome

/-- Settles O8, from the completion of each operation. -/
theorem transactionCompletesIffReady : Obligations.TransactionCompletesIffReady := step_completes_iff_ready

/-- A step leaves the parameters and the inputs (20_memory.md R47), on which alone readiness rests. -/
theorem step_keeps_ready {s t : State} (h : step s = .next t) : ready t = ready s := by
  obtain ⟨o, -, rfl⟩ := transaction_next h
  rfl

theorem run_succ_of_step {s t : State} (h : step s = .next t) (k : Nat) :
    Host.Core.run Sys2Proof.core (k + 1) s = Host.Core.run Sys2Proof.core k t := by
  have hcore : Sys2Proof.core.step s = .next t := h
  simp [Host.Core.run, hcore]

/-- Settles O9, by induction on the number of steps: a ready state steps, and the next state is ready again. -/
theorem readyRunNeverStops : Obligations.ReadyRunNeverStops := by
  intro s hs k
  induction k generalizing s with
  | zero => exact ⟨s, rfl⟩
  | succ k ih =>
    obtain ⟨t, ht⟩ := (step_completes_iff_ready s).2 hs
    rw [run_succ_of_step ht]
    exact ih t ((step_keeps_ready ht).trans hs)

end Sys2Proof.Machine
end

section
/-! PROOFS of the output discipline that every step keeps (10_state.md R26, 40_bit_codec.md R105, 41_decoder.md R123,
60_exceptions.md R218, R220). First the classes of the words that arithmetic produces, then the bounds that keep a result
within PACK_RESULT's preconditions, then ADD, MUL and DIV, and last the operations. -/

namespace Sys2Proof.Machine

/-! ### The classes of the words that arithmetic produces (41_decoder.md R121) -/

theorem magnitude_lt_infMag_of_expField_eq_zero (p : Params) {w : Word} (hE : (expField w).toNat = 0) :
    (magnitude w).toNat < infMag p := by
  have hF := sigField_lt w
  simp only [magnitude_eq, hE, infMag, E_ALL1]
  omega

theorem classify_of_expField_eq_zero (p : Params) {w : Word} (hE : (expField w).toNat = 0) :
    classify p w = if (sigField w).toNat = 0 then .zero else .subnormal := by
  have hm := magnitude_lt_infMag_of_expField_eq_zero p hE
  simp [classify, hE, hm.ne, hm.not_gt]

theorem classify_of_normal_fields {p : Params} (hp : admitted p = true) {w : Word} (h1 : 1 ≤ (expField w).toNat)
    (h2 : (expField w).toNat ≤ eMax p) (hF : (sigField w).toNat ≤ STORED_MAX) : classify p w = .normal := by
  have hm : (magnitude w).toNat < infMag p := by
    rw [magnitude_eq]
    obtain ⟨-, hi, he⟩ | ⟨-, hi, -, he⟩ := infField_bounds hp <;> simp only [infMag, E_ALL1, STORED_MAX] at * <;> omega
  simp [classify, hm.ne, hm.not_gt, show (expField w).toNat ≠ 0 by omega, show ¬ (sigField w).toNat > STORED_MAX by omega]

theorem classify_zeroWord (p : Params) (s : Bool) : classify p (zeroWord s) = .zero := by
  obtain ⟨-, hE, hF⟩ := fields_of_toNat (w := zeroWord s) (s := s) (E := 0) (F := 0) (by decide) (by decide)
    (by simp [zeroWord_toNat])
  rw [classify_of_expField_eq_zero p hE, if_pos hF]

theorem magnitude_of_toNat {w : Word} {s : Bool} {m : Nat} (hm : m < 2 ^ 63) (h : w.toNat = signWeight s + m) :
    (magnitude w).toNat = m := by
  rw [magnitude_toNat, h]
  cases s <;> simp [signWeight] <;> omega

theorem classify_infWord {p : Params} (hp : admitted p = true) (s : Bool) : classify p (infWord p s) = .inf := by
  have hlt : infMag p < 2 ^ 63 := Nat.lt_of_succ_lt (infMag_lt hp)
  exact if_pos (magnitude_of_toNat hlt (infWord_toNat p s hlt))

theorem classify_qnan {p : Params} (hp : admitted p = true) : classify p (qnan p) = .nan := by
  have hm : (magnitude (qnan p)).toNat = infMag p + 1 :=
    magnitude_of_toNat (s := false) (infMag_lt hp) (by rw [qnan_toNat p (infMag_lt hp)]; simp [signWeight])
  simp [classify, hm]

theorem classify_packFields_subnormal (p : Params) (s : Bool) {F : Nat} (h0 : F ≠ 0) (hF : F < 2 ^ 53) :
    classify p (packFields s 0 F) = .subnormal := by
  obtain ⟨-, hE, hsig⟩ := packFields_fields s (E := 0) (by decide) hF
  rw [classify_of_expField_eq_zero p hE, hsig, if_neg h0]

theorem eMax_lt {p : Params} (hp : admitted p = true) : eMax p < 2 ^ 10 := by
  obtain ⟨-, -, h⟩ | ⟨-, -, -, h⟩ := infField_bounds hp <;> omega

theorem classify_packFields_normal {p : Params} (hp : admitted p = true) (s : Bool) {E F : Nat} (h1 : 1 ≤ E)
    (h2 : E ≤ eMax p) (hF : F ≤ STORED_MAX) : classify p (packFields s E F) = .normal := by
  have hlt : F < 2 ^ 53 := by simp only [STORED_MAX] at hF; omega
  obtain ⟨-, hE, hsig⟩ := packFields_fields s (h2.trans_lt (eMax_lt hp)) hlt
  apply classify_of_normal_fields hp <;> simpa only [hE, hsig]

/-! ### Words that obey the arithmetic discipline (40_bit_codec.md R105, 60_exceptions.md R218, R220) -/

theorem arithmeticWord_of_class {p : Params} {y : Word} {k : WordClass} (h : classify p y = k) (hnan : k ≠ .nan)
    (hsub : p.subnormals = false → k ≠ .subnormal) : ArithmeticWord p y :=
  ⟨fun hc => absurd (h.symm.trans hc) hnan, fun ho => h ▸ hsub ho⟩

theorem arithmeticWord_qnan {p : Params} (hp : admitted p = true) : ArithmeticWord p (qnan p) :=
  ⟨fun _ => rfl, fun _ => by simp [classify_qnan hp]⟩

theorem arithmeticWord_infWord {p : Params} (hp : admitted p = true) (s : Bool) : ArithmeticWord p (infWord p s) :=
  arithmeticWord_of_class (classify_infWord hp s) (by decide) (by simp)

theorem arithmeticWord_zeroWord (p : Params) (s : Bool) : ArithmeticWord p (zeroWord s) :=
  arithmeticWord_of_class (classify_zeroWord p s) (by decide) (by simp)

/-- All that PACK_RESULT can give for a result of at most 16 digits (40_bit_codec.md R104). -/
theorem packResult_cases {p : Params} (s : Bool) {x : Scaled} (hR : x.R < 10 ^ 16) :
    packResult p s x = infWord p s ∨
    packResult p s x = zeroWord s ∨
    (p.subnormals = true ∧ ∃ F, F ≠ 0 ∧ F < 2 ^ 53 ∧ packResult p s x = packFields s 0 F) ∨
    (∃ E F, 1 ≤ E ∧ E ≤ eMax p ∧ F ≤ STORED_MAX ∧ packResult p s x = packFields s E F) := by
  unfold packResult
  split_ifs with hover hE hzero hoff
  · exact .inl rfl
  · exact .inr (.inl rfl)
  · exact .inr (.inl rfl)
  · refine .inr (.inr (.inl ⟨Bool.eq_true_of_not_eq_false hoff, min x.R F_MAX, ?_, ?_, rfl⟩)) <;>
      simp only [F_MAX] <;> omega
  · refine .inr (.inr (.inr ⟨x.expn, x.R - N15, Nat.pos_of_ne_zero hE, not_lt.1 hover, ?_, rfl⟩))
    simp only [N15, STORED_MAX]
    omega

theorem arithmeticWord_packResult {p : Params} (hp : admitted p = true) (s : Bool) {x : Scaled} (hR : x.R < 10 ^ 16) :
    ArithmeticWord p (packResult p s x) := by
  obtain hy | hy | ⟨hon, F, h0, hF, hy⟩ | ⟨E, F, h1, h2, hF, hy⟩ := packResult_cases (p := p) s hR <;> rw [hy]
  · exact arithmeticWord_infWord hp s
  · exact arithmeticWord_zeroWord p s
  · exact arithmeticWord_of_class (classify_packFields_subnormal p s h0 hF) (by decide) (by simp [hon])
  · exact arithmeticWord_of_class (classify_packFields_normal hp s h1 h2 hF) (by decide) (by simp)

/-- The upward loop makes no 17th digit (40_bit_codec.md R106). -/
theorem arithmeticWord_packResult_renormUp {p : Params} (hp : admitted p = true) (s : Bool) (e : Nat) {R : Nat}
    (hR : R < 10 ^ 16) : ArithmeticWord p (packResult p s (renormUp e R)) :=
  arithmeticWord_packResult hp s (renormUp_bounds hR).1

theorem carryOut_R_lt {x : Scaled} (hR : x.R < 10 ^ 17) : (carryOut x).R < 10 ^ 16 := by
  obtain ⟨e, R⟩ := x
  by_cases h : 10 ^ 16 ≤ R
  · rw [carryOut_of_ge h]; exact Nat.div_lt_of_lt_mul hR
  · rw [carryOut_of_lt (not_le.1 h)]; exact not_le.1 h

theorem arithmeticWord_finishResult {p : Params} (hp : admitted p = true) (s : Bool) {x : Scaled} (hR : x.R < 10 ^ 17) :
    ArithmeticWord p (finishResult p s x) :=
  arithmeticWord_packResult_renormUp hp s _ (carryOut_R_lt hR)

/-! ### The bounds of finite operands and of what is computed from them -/

theorem classify_of_large_sigField (p : Params) {w : Word} (hE : (expField w).toNat ≠ 0)
    (hF : (sigField w).toNat > STORED_MAX) : classify p w = .inf ∨ classify p w = .nan := by
  unfold classify
  rw [if_neg hE, if_pos hF]
  split_ifs <;> simp

theorem sigField_le_of_finite {p : Params} {w : Word} (hw : finite p w = true) (hE : (expField w).toNat ≠ 0) :
    (sigField w).toNat ≤ STORED_MAX := by
  obtain ⟨hnan, hinf⟩ := finite_not_special hw
  by_contra hF
  exact (classify_of_large_sigField p hE (not_le.1 hF)).elim hinf hnan

/-- The significand of a finite operand has at most 16 digits (41_decoder.md R126). -/
theorem dec_S_lt_of_finite {p : Params} {w : Word} (hw : finite p w = true) : (dec w).S < 10 ^ 16 := by
  have hlt := sigField_lt w
  simp only [dec, N15]
  split_ifs with hE
  · omega
  · have hF := sigField_le_of_finite hw hE
    simp only [STORED_MAX] at hF
    omega

/-- A right shift does not grow a number (42_digit_shifter.md R140). -/
theorem shift10_neg_le (v d : Nat) : shift10 v (-(d : Int)) ≤ v := by
  obtain rfl | hd := Nat.eq_zero_or_pos d
  · have h := shift10_left v 0
    simp only [pow_zero, mul_one] at h
    exact h ▸ Nat.mod_le _ _
  · rw [shift10_right v d hd]
    split_ifs
    · exact Nat.zero_le v
    · exact Nat.div_le_self _ _

theorem alignCombine_R_le (sL sM : Bool) (L M expn d : Nat) : (alignCombine sL sM L M expn d).mag.R ≤ L + M := by
  have h := shift10_neg_le M d
  unfold alignCombine
  split_ifs <;> simp only <;> omega

theorem addEqual_R_le (x y : Triple) : (addEqual x y).mag.R ≤ x.S + y.S := by
  unfold addEqual
  split_ifs <;> simp only <;> omega

/-- The cancellation guard multiplies by ten only below 2 x 10^15 (43_adder_subtractor.md R154, R155). -/
theorem addUnequal_R_lt {big small : Triple} (hb : big.S < 10 ^ 16) (hs : small.S < 10 ^ 16) :
    (addUnequal big small).mag.R < 10 ^ 17 := by
  unfold addUnequal
  split_ifs with hguard
  · have h := alignCombine_R_le big.sign small.sign (big.S * 10) small.S (big.E - 1) (big.E - small.E - 1)
    have hten := hguard.2
    simp only [N15] at hten
    omega
  · have h := alignCombine_R_le big.sign small.sign big.S small.S big.E (big.E - small.E)
    omega

/-- A sum has at most 17 digits before carry-out (43_adder_subtractor.md R158). -/
theorem addTriples_R_lt {x y : Triple} (hx : x.S < 10 ^ 16) (hy : y.S < 10 ^ 16) : (addTriples x y).mag.R < 10 ^ 17 := by
  unfold addTriples
  split_ifs
  · have h := addEqual_R_le x y
    omega
  · exact addUnequal_R_lt hx hy
  · exact addUnequal_R_lt hy hx

/-- A rescaled product has at most 17 digits before carry-out (44_multiplier.md R183). -/
theorem product_lt {a b : Nat} (ha : a < 10 ^ 16) (hb : b < 10 ^ 16) : a * b / N15 < 10 ^ 17 :=
  Nat.div_lt_of_lt_mul (calc a * b < 10 ^ 16 * 10 ^ 16 := Nat.mul_lt_mul'' ha hb
    _ = N15 * 10 ^ 17 := by norm_num)

/-- DIV's downward loop leaves at most 16 digits: where its bound on the steps ends it, one step per digit of the quotient
has left nothing (45_divider.md R199, R202). -/
theorem divDown_fits_R_lt {p : Params} {n Q : Nat} {e : Int} {q : Scaled} (hQ : Q < 10 ^ n) (h : divDown p n Q e = .fits q) :
    q.R < 10 ^ 16 := by
  induction n generalizing Q e with
  | zero =>
    cases h
    exact hQ.trans (by decide)
  | succ n ih =>
    by_cases hstep : 10 ^ 16 ≤ Q ∨ e < 0
    · rw [divDown_step p n hstep] at h
      split_ifs at h
      exact ih (Nat.div_lt_of_lt_mul (by rwa [← pow_succ'])) h
    · have hfit : Q < 10 ^ 16 := by omega
      rw [divDown_stop p _ hfit (by omega)] at h
      cases h
      exact hfit

theorem quotient_lt {a : Nat} (ha : a < 10 ^ 16) (b : Nat) : a * N15 / b < 10 ^ 31 :=
  (Nat.div_le_self _ _).trans_lt (by simp only [N15]; omega)

/-! ### ADD, MUL and DIV -/

theorem arithmeticWord_mulTriples {p : Params} (hp : admitted p = true) (s : Bool) {x y : Triple} (hx : x.S < 10 ^ 16)
    (hy : y.S < 10 ^ 16) : ArithmeticWord p (mulTriples p s x y) := by
  unfold mulTriples
  split_ifs
  · exact arithmeticWord_zeroWord p s
  · exact arithmeticWord_infWord hp s
  · exact arithmeticWord_finishResult hp s (product_lt hx hy)

/-- The word that DIV gives once its downward loop has ended (45_divider.md R199 to R201). -/
def quotientWord (p : Params) (s : Bool) : Quotient → Word
  | .zeroExit => zeroWord s
  | .overflowExit => infWord p s
  | .fits q => packResult p s (renormUp q.expn q.R)

/-- DIV's steps 2 to 6 split at the end of the downward loop (45_divider.md R197 to R201). `divTriples` is unfolded before it
is applied: on its applied form the kernel tries to run the 31 steps of the loop on symbolic operands. -/
theorem divTriples_eq_quotientWord (p : Params) (s : Bool) (x y : Triple) :
    divTriples p s x y = quotientWord p s (divDown p 31 (x.S * N15 / y.S) (divExponent x y)) := by
  obtain ⟨f, hf⟩ : ∃ f, f = divTriples := ⟨_, rfl⟩
  rw [← hf]
  delta divTriples at hf
  rw [hf]
  beta_reduce
  generalize divDown p 31 (x.S * N15 / y.S) (divExponent x y) = r
  cases r <;> rfl

theorem arithmeticWord_divTriples {p : Params} (hp : admitted p = true) (s : Bool) {x : Triple} (hx : x.S < 10 ^ 16)
    (y : Triple) : ArithmeticWord p (divTriples p s x y) := by
  rw [divTriples_eq_quotientWord]
  cases hq : divDown p 31 (x.S * N15 / y.S) (divExponent x y) with
  | zeroExit => exact arithmeticWord_zeroWord p s
  | overflowExit => exact arithmeticWord_infWord hp s
  | fits q => exact arithmeticWord_packResult_renormUp hp s q.expn (divDown_fits_R_lt (quotient_lt hx y.S) hq)

theorem arithmeticWord_addFinite {p : Params} (hp : admitted p = true) {a b : Word} (ha : finite p a = true)
    (hb : finite p b = true) : ArithmeticWord p (addFinite p a b) :=
  arithmeticWord_finishResult hp _ (addTriples_R_lt (dec_S_lt_of_finite ha) (dec_S_lt_of_finite hb))

theorem arithmeticWord_addWords {p : Params} (hp : admitted p = true) (a b : Word) : ArithmeticWord p (addWords p a b) := by
  unfold addWords
  split_ifs with hnan _ _ hia hib
  · exact arithmeticWord_qnan hp
  · exact arithmeticWord_infWord hp _
  · exact arithmeticWord_qnan hp
  · exact arithmeticWord_infWord hp _
  · exact arithmeticWord_infWord hp _
  · obtain ⟨hna, hnb⟩ := not_or.1 hnan
    exact arithmeticWord_addFinite hp (finite_of_not_special hna hia) (finite_of_not_special hnb hib)

theorem arithmeticWord_mulWords {p : Params} (hp : admitted p = true) (a b : Word) : ArithmeticWord p (mulWords p a b) := by
  unfold mulWords
  split_ifs with hnan _ hinf
  · exact arithmeticWord_qnan hp
  · exact arithmeticWord_qnan hp
  · exact arithmeticWord_infWord hp _
  · obtain ⟨hna, hnb⟩ := not_or.1 hnan
    obtain ⟨hia, hib⟩ := not_or.1 hinf
    exact arithmeticWord_mulTriples hp _ (dec_S_lt_of_finite (finite_of_not_special hna hia))
      (dec_S_lt_of_finite (finite_of_not_special hnb hib))

theorem arithmeticWord_divWords {p : Params} (hp : admitted p = true) (a b : Word) : ArithmeticWord p (divWords p a b) := by
  unfold divWords
  split_ifs with hnan _ _ hia _
  · exact arithmeticWord_qnan hp
  · exact arithmeticWord_qnan hp
  · exact arithmeticWord_qnan hp
  · exact arithmeticWord_infWord hp _
  · exact arithmeticWord_zeroWord p _
  · exact arithmeticWord_divTriples hp _ (dec_S_lt_of_finite (finite_of_not_special (not_or.1 hnan).1 hia)) _

/-! ### The operations -/

theorem onY_noFields (y : Word) : (onY y).noFields := ⟨rfl, rfl, rfl, rfl⟩

theorem code_toNat_le (k : WordClass) : k.code.toNat ≤ 4 := by cases k <;> decide

theorem unpackOutputs_obey (p : Params) (w : Word) : OutputsObey p .unpack (unpackOutputs p w) := by
  refine ⟨rfl, ?_, code_toNat_le _⟩
  simp only [unpackOutputs, onFields_uSig, BitVec.toNat_setWidth]
  exact (Nat.mod_le _ _).trans_lt (sigField_lt w)

theorem decodeOutputs_obey (p : Params) (w : Word) : OutputsObey p .decode (decodeOutputs p w) := by
  refine ⟨rfl, ?_, code_toNat_le _⟩
  simp only [decodeOutputs, onFields_uSig, BitVec.toNat_ofNat]
  exact (Nat.mod_le _ _).trans_lt (dec_S_lt w)

/-- A completed operation drives outputs that obey its rules, and nothing else (10_state.md R26, 20_memory.md R47). -/
theorem exec_obeys {i : Instr} {s t : State} (h : exec i s = .next t) :
    ∃ o, t = { s with out := some o } ∧ OutputsObey s.params i o := by
  cases i with
  | pack => obtain ⟨_, _, _, -, rfl⟩ := execPack_next h; exact ⟨_, rfl, onY_noFields _⟩
  | unpack => obtain ⟨a, -, rfl⟩ := onA_next h; exact ⟨_, rfl, unpackOutputs_obey _ a⟩
  | decode => obtain ⟨a, -, rfl⟩ := onA_next h; exact ⟨_, rfl, decodeOutputs_obey _ a⟩
  | shift => obtain ⟨_, _, -, -, rfl⟩ := execShift_next h; exact ⟨_, rfl, onY_noFields _⟩
  | add => obtain ⟨_, _, hp, rfl⟩ := onAB_next h; exact ⟨_, rfl, onY_noFields _, arithmeticWord_addWords hp.1 _ _⟩
  | sub => obtain ⟨_, _, hp, rfl⟩ := onAB_next h; exact ⟨_, rfl, onY_noFields _, arithmeticWord_addWords hp.1 _ _⟩
  | neg => obtain ⟨_, -, rfl⟩ := onA_next h; exact ⟨_, rfl, onY_noFields _⟩
  | mul => obtain ⟨_, _, hp, rfl⟩ := onAB_next h; exact ⟨_, rfl, onY_noFields _, arithmeticWord_mulWords hp.1 _ _⟩
  | div => obtain ⟨_, _, hp, rfl⟩ := onAB_next h; exact ⟨_, rfl, onY_noFields _, arithmeticWord_divWords hp.1 _ _⟩
  | reserved9 | reservedAB | reservedCF =>
    obtain ⟨-, rfl⟩ := reservedTransaction_next h; exact ⟨_, rfl, onY_noFields _, rfl⟩

theorem step_disciplined {s t : State} (h : step s = .next t) : Disciplined t := by
  obtain ⟨op, hop, hexec⟩ := step_next h
  obtain ⟨hadmitted, -⟩ := exec_next hexec
  obtain ⟨o, rfl, hobey⟩ := exec_obeys hexec
  exact ⟨hadmitted, op, o, hop, rfl, hobey⟩

/-- Settles O51: the step ran the operation that op names, whose outputs obey that operation's rules. -/
theorem everyStepKeepsOutputDiscipline : Obligations.EveryStepKeepsOutputDiscipline := fun _ _ => step_disciplined

/-- Every operation's rules put 0 on the outputs that it does not name (10_state.md R26). -/
theorem unnamed_zero_of_outputsObey {p : Params} {i : Instr} {o : Outputs} (h : OutputsObey p i o) :
    if i = .unpack ∨ i = .decode then o.y = 0 else o.noFields := by
  cases i with
  | pack | shift | neg => simpa [OutputsObey] using h
  | unpack | decode => simpa using h.1
  | add | sub | mul | div | reserved9 | reservedAB | reservedCF => simpa using h.1

/-- Settles O11, from the rules that a completed operation's outputs obey. -/
theorem unnamedOutputsAreZero : Obligations.UnnamedOutputsAreZero := by
  intro i s t h
  obtain ⟨o, rfl, hobey⟩ := exec_obeys h
  exact ⟨o, rfl, unnamed_zero_of_outputsObey hobey⟩

/-! ### The reset state -/

/-- The step from reset is PACK of zeros (entry 3), whose word is 0. -/
theorem step_reset : step State.reset = .next State.reset := by
  have hpack : PresentsPack State.reset 0 0 0 := ⟨by decide, rfl, rfl, rfl⟩
  have hzero : packTriple ⟨(0 : BitVec 1).getLsbD 0, (0 : BitVec 10).toNat, (0 : BitVec 54).toNat⟩ = 0 := by decide
  calc step State.reset = execPack State.reset := step_of_op (op := 0) rfl
    _ = .next (State.reset.yields 0) := by rw [execPack_completes hpack, hzero]

/-- Settles O12, by running PACK on the port values at reset. -/
theorem resetOutputsFollowInputs : Obligations.ResetOutputsFollowInputs := step_reset

/-- Settles O52: the reset state is where a step ends, namely its own. -/
theorem resetIsDisciplined : Obligations.ResetIsDisciplined := step_disciplined step_reset

end Sys2Proof.Machine
end

section
/-! PROOFS of the memory statements: a transaction has no side effect (20_memory.md R46, R47), and words in the host's storage
(20_memory.md R44). -/

namespace Sys2Proof.Machine

/-! ### No side effect -/

theorem exec_keeps_params_inp {i : Instr} {s t : State} (h : exec i s = .next t) : t.params = s.params ∧ t.inp = s.inp := by
  obtain ⟨-, o, rfl⟩ := exec_next h
  exact ⟨rfl, rfl⟩

/-- A step answers for the parameters and the inputs alone, since no transaction reads the outputs (10_state.md R21). -/
theorem step_eq_of_params_inp {s t : State} (hp : s.params = t.params) (hi : s.inp = t.inp) : step s = step t :=
  calc step s = step { t with out := s.out } := by rw [← hp, ← hi]
    _ = step t := transaction_ignores_out t s.out

/-- The state after a step carries the inputs that the step read, so the step repeated gives that state again. -/
theorem step_repeats {s t : State} (h : step s = .next t) : step t = .next t := by
  obtain ⟨o, -, rfl⟩ := transaction_next h
  exact (transaction_ignores_out s (some o)).trans h

/-- Settles O10, from what a completed operation leaves unchanged and from no operation reading the outputs. -/
theorem transactionHasNoSideEffect : Obligations.TransactionHasNoSideEffect :=
  ⟨fun _ _ _ => exec_keeps_params_inp, fun _ _ => step_eq_of_params_inp, fun _ _ => step_repeats⟩

/-! ### Words in the host's storage -/

/-- Adjacent bytes of a word join to a longer part of it, up to the whole word. -/
theorem wordOfLittle_littleBytes (w : Word) : wordOfLittle (littleBytes w) = some w := by
  simp only [wordOfLittle, littleBytes, BitVec.extractLsb'_append_extractLsb'_eq_extractLsb', BitVec.extractLsb'_eq_self]

theorem wordOfBytes_wordToBytes (order : ByteOrder) (w : Word) : wordOfBytes order (wordToBytes order w) = some w := by
  cases order with
  | littleEndian => exact wordOfLittle_littleBytes w
  | bigEndian =>
    calc wordOfLittle (littleBytes w).reverse.reverse = wordOfLittle (littleBytes w) := by rw [List.reverse_reverse]
      _ = some w := wordOfLittle_littleBytes w

theorem wordToBytes_length (order : ByteOrder) (w : Word) : (wordToBytes order w).length = 8 := by
  cases order <;> rfl

/-- Settles O55: the big-endian order is by definition the reverse of the little-endian one. -/
theorem storedWordsReadBack : Obligations.StoredWordsReadBack :=
  fun order w => ⟨wordOfBytes_wordToBytes order w, rfl, wordToBytes_length order w⟩

end Sys2Proof.Machine
end

section
/-! PROOFS of the op map statements (30_encoding.md R70, R71): the decoder, the encoder and the rows of the op table agree, and
the reserved op values give QNAN. -/

namespace Sys2Proof.Machine

/-! ### The op map -/

theorem decodeTableWord_of_lt (n : Nat) {w : Nat} (h : w < 16) :
    decodeTableWord n w = some (decodeOp (BitVec.ofNat 4 w)) := by
  simp [decodeTableWord, decodeValue, h]

/-- Settles O1: op values 0xA to 0xF are run through in each of the two rows of several values. -/
theorem opValuesSelectOperations : Obligations.OpValuesSelectOperations := by
  refine ⟨rfl, rfl, rfl, rfl, rfl, rfl, rfl, rfl, rfl, rfl, fun w h1 h2 => ?_, fun w h1 h2 => ?_⟩
  all_goals
    rw [decodeTableWord_of_lt 8 (by omega)]
    interval_cases w <;> rfl

/-- Settles O3, by running the table over the sixteen op values. -/
theorem opRowsPartitionOpValues : Obligations.OpRowsPartitionOpValues := by
  unfold Obligations.OpRowsPartitionOpValues
  decide

/-- Every operation satisfies the round-trip statement of its constructor. -/
theorem roundTrip_statement (i : Instr) : Laws.RoundTrip.Statement i := by
  cases i with
  | pack => exact Laws.RoundTrip.pack
  | unpack => exact Laws.RoundTrip.unpack
  | decode => exact Laws.RoundTrip.decode
  | shift => exact Laws.RoundTrip.shift
  | add => exact Laws.RoundTrip.add
  | sub => exact Laws.RoundTrip.sub
  | neg => exact Laws.RoundTrip.neg
  | mul => exact Laws.RoundTrip.mul
  | div => exact Laws.RoundTrip.div
  | reserved9 => exact Laws.RoundTrip.reserved9
  | reservedAB op => exact Laws.RoundTrip.reservedAB op
  | reservedCF op => exact Laws.RoundTrip.reservedCF op

theorem encode_decodeOp : ∀ op : BitVec 4, encode (decodeOp op) = op := by decide

theorem wellFormed_decodeOp : ∀ op : BitVec 4, (decodeOp op).wellFormed = true := by decide

/-- Settles O4: one direction constructor by constructor, the other over the sixteen op values. -/
theorem opDecodeEncodeAgree : Obligations.OpDecodeEncodeAgree :=
  ⟨fun i hi => (roundTrip_statement i hi).1, fun op => ⟨encode_decodeOp op, wellFormed_decodeOp op⟩⟩

/-! ### The reserved rows -/

theorem reservedTransaction_completes {s : State} (h : admitted s.params = true) :
    reservedTransaction s = .next (s.yields (qnan s.params)) := by
  rw [reservedTransaction, whenAdmitted_of_admitted h, drive_onY]

/-- Op values from 9 on fall into the three reserved rows (30_encoding.md R71). -/
theorem decodeOp_reserved : ∀ op : BitVec 4, 9 ≤ op.toNat →
    decodeOp op = .reserved9 ∨ decodeOp op = .reservedAB op ∨ decodeOp op = .reservedCF op := by decide

theorem exec_decodeOp_reserved {op : BitVec 4} (h : 9 ≤ op.toNat) (s : State) :
    exec (decodeOp op) s = reservedTransaction s := by
  obtain h | h | h := decodeOp_reserved op h <;> rw [h] <;> rfl

/-- Settles O49: the three rows share one transaction, and op values from 9 on select it. -/
theorem reservedOpsGiveQnan : Obligations.ReservedOpsGiveQnan := by
  intro s op hp
  have hq := reservedTransaction_completes hp
  refine ⟨hq, hq, hq, fun h9 hop => ?_⟩
  rw [step_of_op hop, exec_decodeOp_reserved h9, hq]

end Sys2Proof.Machine
end

section
/-! PROOFS of the statements about words: the helper words (30_encoding.md R61, R63, R64), and the one encoding of a finite
value (R57, R68). -/

namespace Sys2Proof.Machine

/-! ### The helper words -/

/-- Settles O14: INF_MAG fits below the sign bit in every admitted instance, so no helper word wraps. -/
theorem sentinelWords : Obligations.SentinelWords := by
  refine ⟨zeroWord_toNat, fun p s hp => ⟨?_, qnan_toNat p (infMag_lt hp), classify_zeroWord p s, classify_infWord hp s,
    classify_qnan hp⟩⟩
  exact (infWord_toNat p s (Nat.lt_of_succ_lt (infMag_lt hp))).trans (Nat.add_assoc _ _ _).symm

/-! ### The value of a word -/

/-- A word is determined by its logical triple. -/
theorem dec_injective : Function.Injective dec := by
  intro v w h
  simp only [dec, Triple.mk.injEq] at h
  obtain ⟨hs, hE, hS⟩ := h
  have hF : (sigField v).toNat = (sigField w).toNat := by
    rw [hE] at hS
    split_ifs at hS <;> omega
  apply BitVec.eq_of_toNat_eq
  rw [word_toNat_eq v, word_toNat_eq w, hs, hE, hF]

/-- Above exponent 0 the leading digit is restored (41_decoder.md R120). -/
theorem dec_S_ge {w : Word} (h : (dec w).E ≠ 0) : 10 ^ 15 ≤ (dec w).S := by
  have hE : (expField w).toNat ≠ 0 := h
  simp [dec, hE]

/-- The magnitude of a value (30_encoding.md R57). -/
theorem abs_value (w : Word) : |value w| = ((dec w).S : ℚ) * 10 ^ (((dec w).E : Int) - BIAS - 15) := by
  unfold value
  split_ifs <;> simp [abs_mul]

/-- Significands of words of one magnitude differ by the power of ten between their exponents. -/
theorem dec_S_eq_of_abs_value_eq {v w : Word} (h : |value v| = |value w|) (hE : (dec v).E ≤ (dec w).E) :
    (dec v).S = (dec w).S * 10 ^ ((dec w).E - (dec v).E) := by
  rw [abs_value, abs_value] at h
  have hsplit : ((dec w).E : Int) - BIAS - 15 = ((dec w).E - (dec v).E : Nat) + (((dec v).E : Int) - BIAS - 15) := by omega
  rw [hsplit, zpow_add₀ (by norm_num), zpow_natCast, ← mul_assoc] at h
  exact_mod_cast mul_right_cancel₀ (zpow_ne_zero _ (by norm_num)) h

/-- Of two finite words of one magnitude, the one at the larger exponent has no larger one: its significand has 16 digits, and a
further power of ten would make 17. -/
theorem dec_E_le_of_abs_value_eq {p : Params} {v w : Word} (hv : finite p v = true) (h : |value v| = |value w|) :
    (dec w).E ≤ (dec v).E := by
  by_contra hlt
  have hS := dec_S_eq_of_abs_value_eq h (not_le.1 hlt).le
  have hvS : (dec v).S < 10 ^ 16 := dec_S_lt_of_finite hv
  have hwS : 10 ^ 15 ≤ (dec w).S := dec_S_ge (by omega)
  have hten : 10 ^ 1 ≤ 10 ^ ((dec w).E - (dec v).E) := Nat.pow_le_pow_right (by decide) (by omega)
  have hprod := Nat.mul_le_mul hwS hten
  omega

/-- Settles O19: a finite value fixes the exponent, and with it the significand. -/
theorem finiteValuesHaveOneEncoding : Obligations.FiniteValuesHaveOneEncoding := by
  intro p v w _ hv hw hsign hvalue
  have habs : |value v| = |value w| := congrArg _ hvalue
  have hE : (dec v).E = (dec w).E :=
    le_antisymm (dec_E_le_of_abs_value_eq hw habs.symm) (dec_E_le_of_abs_value_eq hv habs)
  have hS : (dec v).S = (dec w).S := by simpa [hE] using dec_S_eq_of_abs_value_eq habs hE.le
  apply dec_injective
  calc dec v = ⟨signOf v, (dec v).E, (dec v).S⟩ := rfl
    _ = ⟨signOf w, (dec w).E, (dec w).S⟩ := by rw [hsign, hE, hS]
    _ = dec w := rfl

end Sys2Proof.Machine
end

section
/-! PROOFS of the script statement: MAKE stores the normal word of its value on its domain, and is refused outside it
(30_encoding.md R76, R77). -/

namespace Sys2Proof.Machine

/-! ### PACK of a normal triple -/

/-- On a normal triple PACK stores the significand less its leading digit (40_bit_codec.md R101). -/
theorem packTriple_of_normal (s : Bool) {E S : Nat} (hE : E ≠ 0) (h1 : 10 ^ 15 ≤ S) (h2 : S < 10 ^ 16) :
    packTriple ⟨s, E, S⟩ = packFields s E (S - 10 ^ 15) := by
  have hfield : storedField E S = S - 10 ^ 15 := by
    simp only [storedField, hE, if_false, N15]
    omega
  simp only [packTriple, hfield]

theorem classify_packTriple_normal {p : Params} (hp : admitted p = true) (s : Bool) {E S : Nat} (hE1 : 1 ≤ E)
    (hE2 : E ≤ eMax p) (h1 : 10 ^ 15 ≤ S) (h2 : S < 10 ^ 16) : classify p (packTriple ⟨s, E, S⟩) = .normal := by
  rw [packTriple_of_normal s (by omega) h1 h2]
  exact classify_packFields_normal hp s hE1 hE2 (by simp only [STORED_MAX]; omega)

/-- DEC takes PACK of a normal triple back (41_decoder.md R125). -/
theorem dec_packTriple_normal (s : Bool) {E S : Nat} (hE1 : E ≠ 0) (hE2 : E < 2 ^ 10) (h1 : 10 ^ 15 ≤ S) (h2 : S < 10 ^ 16) :
    dec (packTriple ⟨s, E, S⟩) = ⟨s, E, S⟩ := by
  rw [packTriple_of_normal s hE1 h1 h2, dec_packFields s hE2 (by omega), if_neg hE1,
    show S - 10 ^ 15 + N15 = S from Nat.sub_add_cancel h1]

/-! ### The host's names -/

@[simp] theorem Session.value_store_same (h : Session) (d : Nat) (w : Word) : (h.store d w).value (.slot d) = some w := by
  simp [Session.value, Session.store]

/-! ### MAKE -/

/-- The triple whose word MAKE stores (30_encoding.md R77). -/
def makeTriple (units frac exp : Int) : Triple :=
  ⟨decide (units < 0), (exp + BIAS).toNat, (frac + units.natAbs * N15).toNat⟩

/-- On MAKE's domain its triple is a normal one (30_encoding.md R77). -/
theorem makeTriple_normal {p : Params} {u f x : Int} (h : makeDomain p u f x = true) :
    1 ≤ (makeTriple u f x).E ∧ (makeTriple u f x).E ≤ eMax p ∧
      10 ^ 15 ≤ (makeTriple u f x).S ∧ (makeTriple u f x).S < 10 ^ 16 := by
  simp only [makeDomain, decide_eq_true_eq, N15, BIAS] at h
  obtain ⟨hu1, hu9, hf0, hf, hx1, hx⟩ := h
  simp only [makeTriple, N15, BIAS]
  refine ⟨?_, ?_, ?_, ?_⟩ <;> omega

/-- MAKE's ports carry its triple exactly (30_encoding.md R73, R77). -/
theorem makeInputs_eq_packInputs {p : Params} (hp : admitted p = true) {u f x : Int} (h : makeDomain p u f x = true) :
    ∃ (sg : BitVec 1) (E : BitVec 10) (S : BitVec 54), makeInputs u f x = packInputs sg E (some S) ∧
      makeTriple u f x = ⟨sg.getLsbD 0, E.toNat, S.toNat⟩ := by
  obtain ⟨hE1, hE2, hS1, hS2⟩ := makeTriple_normal h
  have hmax := eMax_lt hp
  refine ⟨_, _, _, rfl, ?_⟩
  simp only [makeTriple, BitVec.toNat_ofInt, Triple.mk.injEq, N15, BIAS] at *
  refine ⟨by simp, ?_, ?_⟩ <;> omega

/-- A PACK line's ports run PACK on them (30_encoding.md R72, R76). -/
theorem step_present_packInputs {s : State} (hp : admitted s.params = true) (sg : BitVec 1) (E : BitVec 10) (S : BitVec 54) :
    step (s.present (packInputs sg E (some S))) =
      .next ((s.present (packInputs sg E (some S))).yields (packTriple ⟨sg.getLsbD 0, E.toNat, S.toNat⟩)) :=
  (step_of_op (op := 0) rfl).trans (execPack_completes ⟨hp, rfl, rfl, rfl⟩)

/-- On MAKE's domain the host keeps the y of its step (30_encoding.md R76). -/
theorem runLine_make_of_step {h : Session} {t : State} {y : Word} (d : Nat) {u f x : Int}
    (hdom : makeDomain h.block.params u f x = true)
    (hstep : step (h.block.present (makeInputs u f x)) = .next (t.yields y)) :
    runLine (.make d u f x) h = .next (Session.store { h with block := t.yields y } d y) := by
  have hallowed : (Line.make d u f x).allowed h.block.params = true := hdom
  rw [runLine, if_pos hallowed, Line.inputs, hstep]
  rfl

/-- MAKE on its domain is one PACK, whose y the host keeps (30_encoding.md R77). -/
theorem runLine_make {h : Session} (hp : admitted h.block.params = true) (d : Nat) {u f x : Int}
    (hdom : makeDomain h.block.params u f x = true) :
    ∃ h', runLine (.make d u f x) h = .next h' ∧ h'.value (.slot d) = some (packTriple (makeTriple u f x)) := by
  obtain ⟨sg, E, S, hinputs, htriple⟩ := makeInputs_eq_packInputs hp hdom
  have hstep := step_present_packInputs hp sg E S
  rw [← hinputs, ← htriple] at hstep
  exact ⟨_, runLine_make_of_step d hdom hstep, Session.value_store_same _ d _⟩

theorem runLine_make_outside {h : Session} (d : Nat) {u f x : Int} (hdom : makeDomain h.block.params u f x = false) :
    runLine (.make d u f x) h = .refused .makeOutsideDomain := by
  have hallowed : ¬ (Line.make d u f x).allowed h.block.params = true := by simp [Line.allowed, hdom]
  rw [runLine, if_neg hallowed]

/-- The value of MAKE's triple is u.f x 10^x (30_encoding.md R57, R77). -/
theorem value_of_dec_eq_makeTriple {p : Params} {u f x : Int} (hdom : makeDomain p u f x = true) {w : Word}
    (hw : dec w = makeTriple u f x) :
    value w = (if u < 0 then -1 else 1) * ((f + u.natAbs * 10 ^ 15 : Int) : ℚ) * (10 : ℚ) ^ (x - 15) := by
  simp only [makeDomain, decide_eq_true_eq] at hdom
  obtain ⟨-, -, hf0, -, hx1, -⟩ := hdom
  have hS : (((f + u.natAbs * N15).toNat : Int) : ℚ) = ((f + u.natAbs * 10 ^ 15 : Int) : ℚ) := by
    rw [Int.toNat_of_nonneg (by positivity)]
    norm_num [N15]
  have hE : ((x + BIAS).toNat : Int) - BIAS - 15 = x - 15 := by omega
  simp only [value, hw, makeTriple, decide_eq_true_eq, hE, ← hS, Int.cast_natCast]

/-- Settles O53: on the domain MAKE is PACK of a normal triple, which DEC takes back. -/
theorem makeBuildsNormalWord : Obligations.MakeBuildsNormalWord := by
  intro h d u f x hp
  refine ⟨fun hdom => ?_, runLine_make_outside d⟩
  obtain ⟨h', hrun, hslot⟩ := runLine_make hp d hdom
  obtain ⟨hE1, hE2, hS1, hS2⟩ := makeTriple_normal hdom
  have hdec : dec (packTriple (makeTriple u f x)) = makeTriple u f x :=
    dec_packTriple_normal _ (Nat.one_le_iff_ne_zero.1 hE1) (hE2.trans_lt (eMax_lt hp)) hS1 hS2
  exact ⟨h', _, hrun, hslot, classify_packTriple_normal hp _ hE1 hE2 hS1 hS2, value_of_dec_eq_makeTriple hdom hdec⟩

end Sys2Proof.Machine
end

section
/-! PROOFS of the rendering statement: FMT writes the sixteen digits of S and the exponent in decimal without padding
(30_encoding.md R78, R79, 90_conflicts.md C7). -/

namespace Sys2Proof.Machine

/-! ### Decimal digits -/

/-- The ten digit characters: each lies among the digits, and its code is 48 above the digit. -/
theorem ofNat_digit : ∀ d < 10,
    ('0' ≤ Char.ofNat (48 + d) ∧ Char.ofNat (48 + d) ≤ '9') ∧ (Char.ofNat (48 + d)).toNat - 48 = d := by decide

theorem digitChar_isDigit (d : Nat) : '0' ≤ digitChar d ∧ digitChar d ≤ '9' :=
  (ofNat_digit (d % 10) (Nat.mod_lt _ (by decide))).1

@[simp] theorem digitChar_toNat (d : Nat) : (digitChar d).toNat - 48 = d % 10 :=
  (ofNat_digit (d % 10) (Nat.mod_lt _ (by decide))).2

/-- Only a digit 0 is written as '0'. -/
theorem mod_ten_of_digitChar_eq_zero {d : Nat} (h : digitChar d = '0') : d % 10 = 0 := by
  rw [← digitChar_toNat, h]
  rfl

theorem digitsValue_append_singleton (ds : List Char) (c : Char) :
    digitsValue (ds ++ [c]) = 10 * digitsValue ds + (c.toNat - 48) := by
  simp [digitsValue]

/-! ### Numbers written with a given number of digits -/

theorem digitsPadded_length (k v : Nat) : (digitsPadded k v).length = k := by
  induction k generalizing v with
  | zero => rfl
  | succ k ih => simp [digitsPadded, ih]

theorem digitsPadded_isDigit {k v : Nat} {c : Char} (h : c ∈ digitsPadded k v) : '0' ≤ c ∧ c ≤ '9' := by
  induction k generalizing v with
  | zero => cases h
  | succ k ih =>
    obtain h | h := List.mem_append.1 h
    · exact ih h
    · exact List.mem_singleton.1 h ▸ digitChar_isDigit v

/-- The last k digits of a number write its remainder modulo 10^k. -/
theorem digitsValue_digitsPadded (k v : Nat) : digitsValue (digitsPadded k v) = v % 10 ^ k := by
  induction k generalizing v with
  | zero => simp [digitsPadded, digitsValue, Nat.mod_one]
  | succ k ih =>
    rw [digitsPadded, digitsValue_append_singleton, ih, digitChar_toNat, pow_succ', Nat.mod_mul]
    omega

/-- The first of k + 1 digits stands at 10^k. -/
theorem digitsPadded_succ_eq_cons (k v : Nat) : digitsPadded (k + 1) v = digitChar (v / 10 ^ k) :: digitsPadded k v := by
  induction k generalizing v with
  | zero => simp [digitsPadded]
  | succ k ih =>
    calc digitsPadded (k + 2) v = digitsPadded (k + 1) (v / 10) ++ [digitChar v] := rfl
      _ = digitChar (v / 10 / 10 ^ k) :: (digitsPadded k (v / 10) ++ [digitChar v]) := by rw [ih, List.cons_append]
      _ = digitChar (v / 10 ^ (k + 1)) :: digitsPadded (k + 1) v := by rw [Nat.div_div_eq_div_mul, ← pow_succ', digitsPadded]

/-- A number written with as many digits as it has is not padded. -/
theorem unpaddedDecimal_digitsPadded {k v : Nat} (h1 : k = 0 ∨ 10 ^ k ≤ v) (h2 : v < 10 ^ (k + 1)) :
    UnpaddedDecimal (digitsPadded (k + 1) v) := by
  refine ⟨?_, fun c => digitsPadded_isDigit, fun hhead => ?_⟩
  · simp [digitsPadded_succ_eq_cons]
  · rw [digitsPadded_succ_eq_cons] at hhead ⊢
    have hchar : digitChar (v / 10 ^ k) = '0' := by simpa using hhead
    have hlt : v / 10 ^ k < 10 := Nat.div_lt_of_lt_mul h2
    have hmod := mod_ten_of_digitChar_eq_zero hchar
    obtain rfl | hge := h1
    · rw [hchar]
      rfl
    · have hpos : 0 < v / 10 ^ k := Nat.div_pos hge (by positivity)
      omega

/-- An exponent's magnitude is written with as many digits as it has (90_conflicts.md C7). -/
theorem decimalShort_eq_digitsPadded {v : Nat} (h : v < 10 ^ 4) :
    ∃ k, decimalShort v = digitsPadded (k + 1) v ∧ (k = 0 ∨ 10 ^ k ≤ v) ∧ v < 10 ^ (k + 1) := by
  unfold decimalShort
  split_ifs with h1 h2 h3
  · exact ⟨0, rfl, .inl rfl, h1⟩
  · exact ⟨1, rfl, .inr (not_lt.1 h1), h2⟩
  · exact ⟨2, rfl, .inr (not_lt.1 h2), h3⟩
  · exact ⟨3, rfl, .inr (not_lt.1 h3), h⟩

theorem decimalShort_writes {v : Nat} (h : v < 10 ^ 4) :
    UnpaddedDecimal (decimalShort v) ∧ digitsValue (decimalShort v) = v := by
  obtain ⟨k, heq, h1, h2⟩ := decimalShort_eq_digitsPadded h
  rw [heq]
  exact ⟨unpaddedDecimal_digitsPadded h1 h2, (digitsValue_digitsPadded _ _).trans (Nat.mod_eq_of_lt h2)⟩

/-! ### FMT -/

theorem fmt_of_finite {p : Params} {w : Word} (h : finite p w = true) : fmt p w = renderTriple (dec w) := by
  obtain ⟨hnan, hinf⟩ := finite_not_special h
  unfold fmt
  split
  · exact absurd ‹_› hinf
  · exact absurd ‹_› hnan
  all_goals rfl

/-- The unbiased exponent of a word has at most three digits (30_encoding.md R78). -/
theorem dec_exponent_lt (w : Word) : (((dec w).E : Int) - 512).natAbs < 10 ^ 4 := by
  have hE : (dec w).E < 2 ^ 10 := expField_lt w
  omega

/-- Settles O54: the digit before the point and the fifteen after it are the sixteen digits of S. -/
theorem renderingIsExact : Obligations.RenderingIsExact := by
  intro p w _ hw
  obtain ⟨hunpadded, hexp⟩ := decimalShort_writes (dec_exponent_lt w)
  have hdigits : digitChar ((dec w).S / 10 ^ 15) :: digitsPadded 15 (dec w).S = digitsPadded 16 (dec w).S :=
    (digitsPadded_succ_eq_cons 15 _).symm
  refine ⟨digitChar ((dec w).S / 10 ^ 15), digitsPadded 15 (dec w).S, decimalShort (((dec w).E : Int) - 512).natAbs, ?_,
    digitsPadded_length _ _, fun c hc => digitsPadded_isDigit (hdigits ▸ hc), hunpadded, ?_, hexp⟩
  · rw [fmt_of_finite hw]
    simp only [renderTriple, digitsPadded, List.nil_append, List.cons_append]
    rfl
  · rw [hdigits, digitsValue_digitsPadded, Nat.mod_eq_of_lt (dec_S_lt_of_finite hw)]

end Sys2Proof.Machine
end

section
/-! PROOFS of the bit codec statements: PACK places the fields (40_bit_codec.md R100, R101), UNPACK takes them apart (R102, R103),
and PACK_RESULT's word and class in each of its branches (R104, R105). -/

namespace Sys2Proof.Machine

/-! ### The stored field and the word of a triple -/

theorem storedField_lt (E S : Nat) : storedField E S < 2 ^ 53 := by
  unfold storedField
  split_ifs <;> omega

theorem storedField_zero (S : Nat) : storedField 0 S = S % 2 ^ 53 := if_pos rfl

/-- Above exponent 0 the leading digit is taken off, modulo 2^53 (40_bit_codec.md R101). -/
theorem storedField_of_ne_zero {E : Nat} (hE : E ≠ 0) (S : Nat) :
    (storedField E S : Int) = ((S : Int) - 10 ^ 15) % 2 ^ 53 := by
  simp only [storedField, hE, if_false, N15]
  omega

/-- Where the significand less its leading digit fits 53 bits, nothing is lost (40_bit_codec.md R101). -/
theorem storedField_of_inRange {E S : Nat} (hE : E ≠ 0) (h1 : 10 ^ 15 ≤ S) (h2 : S ≤ 10 ^ 15 + (2 ^ 53 - 1)) :
    storedField E S = S - 10 ^ 15 := by
  have hfield := storedField_of_ne_zero hE S
  omega

theorem packTriple_fields (s : Bool) {E : Nat} (hE : E < 2 ^ 10) (S : Nat) :
    signOf (packTriple ⟨s, E, S⟩) = s ∧ (expField (packTriple ⟨s, E, S⟩)).toNat = E ∧
      (sigField (packTriple ⟨s, E, S⟩)).toNat = storedField E S :=
  packFields_fields s hE (storedField_lt E S)

theorem packTriple_toNat (s : Bool) {E : Nat} (hE : E < 2 ^ 10) (S : Nat) :
    (packTriple ⟨s, E, S⟩).toNat = signWeight s + E * 2 ^ 53 + storedField E S :=
  packFields_toNat s hE (storedField_lt E S)

/-- The weight of the sign that the p_sign port carries (30_encoding.md R56). -/
theorem signWeight_getLsbD_zero : ∀ sg : BitVec 1, signWeight (sg.getLsbD 0) = sg.toNat * 2 ^ 63 := by decide

/-- Settles O20: the word is the sum of the placed fields, and the two cases of the stored field give the two clauses. -/
theorem packPlacesFields : Obligations.PackPlacesFields := by
  intro s sg E S h
  have hword := packTriple_toNat (sg.getLsbD 0) E.isLt S.toNat
  rw [signWeight_getLsbD_zero] at hword
  refine ⟨_, execPack_completes h, ?_, fun hE => ?_⟩
  · rintro rfl
    rw [hword]
    simp [storedField_zero]
  · have hfield := storedField_of_ne_zero (BitVec.toNat_ne_iff_ne.2 hE) S.toNat
    omega

/-! ### UNPACK -/

theorem execUnpack_completes {s : State} {w : Word} (h : PresentsA s w) :
    exec .unpack s = .next (s.yieldsFields (BitVec.ofBool (signOf w)) (expField w) ((sigField w).setWidth 54)
      (classify s.params w).code) :=
  onA_completes h

theorem ofBool_signOf (w : Word) : BitVec.ofBool (signOf w) = BitVec.ofNat 1 (w.toNat / 2 ^ 63) := by
  have hlt := w.isLt
  rw [signOf_eq]
  by_cases h : 2 ^ 63 ≤ w.toNat
  · have hbit : w.toNat / 2 ^ 63 = 1 := by omega
    rw [hbit, decide_eq_true h]
    rfl
  · have hbit : w.toNat / 2 ^ 63 = 0 := by omega
    rw [hbit, decide_eq_false h]
    rfl

theorem expField_eq_ofNat (w : Word) : expField w = BitVec.ofNat 10 (w.toNat / 2 ^ 53) :=
  BitVec.eq_of_toNat_eq (expField_toNat w)

/-- The u_sig port carries the whole significand field (40_bit_codec.md R102). -/
theorem setWidth_sigField_toNat (w : Word) : ((sigField w).setWidth 54).toNat = (sigField w).toNat :=
  BitVec.toNat_setWidth_of_le (by decide)

/-- Settles O21: the raw fields of a word are the parts of its number. -/
theorem unpackSplitsFields : Obligations.UnpackSplitsFields := by
  intro s w h
  rw [execUnpack_completes h, ofBool_signOf, expField_eq_ofNat, ← BitVec.ofNat_toNat, sigField_toNat]

/-! ### UNPACK against field placement and against PACK -/

/-- Placing the fields of a word gives the word back (40_bit_codec.md R103). -/
theorem packFields_of_fields (w : Word) : packFields (signOf w) (expField w).toNat (sigField w).toNat = w := by
  apply BitVec.eq_of_toNat_eq
  rw [packFields_toNat _ (expField_lt w) (sigField_lt w), ← word_toNat_eq]

/-- UNPACK of placed fields gives the fields (40_bit_codec.md R103). -/
theorem execUnpack_packFields {s : State} {sg : Bool} {E F : Nat} (hE : E < 2 ^ 10) (hF : F < 2 ^ 53)
    (h : PresentsA s (packFields sg E F)) :
    exec .unpack s = .next (s.yieldsFields (BitVec.ofBool sg) (BitVec.ofNat 10 E) (BitVec.ofNat 54 F)
      (classify s.params (packFields sg E F)).code) := by
  obtain ⟨hsign, hexp, hsig⟩ := packFields_fields sg hE hF
  have hexp' : expField (packFields sg E F) = BitVec.ofNat 10 E :=
    BitVec.eq_of_toNat_eq (by rw [hexp, BitVec.toNat_ofNat, Nat.mod_eq_of_lt hE])
  rw [execUnpack_completes h, hsign, hexp', ← BitVec.ofNat_toNat, hsig]

/-- Settles O24: a word is its fields and the fields are its word's; the stored field of a normal significand is 10^15 less. -/
theorem unpackInvertsPlacement : Obligations.UnpackInvertsPlacement := by
  refine ⟨fun s w h => ?_, fun s sg E F hE hF h => ⟨_, execUnpack_packFields hE hF h⟩, fun s sg E S h hE h1 h2 => ?_⟩
  · refine ⟨_, _, _, _, execUnpack_completes h, ?_⟩
    rw [setWidth_sigField_toNat, BitVec.getLsbD_ofBool]
    simpa using packFields_of_fields w
  · obtain ⟨-, -, hsig⟩ := packTriple_fields (sg.getLsbD 0) E.isLt S.toNat
    refine ⟨_, _, _, _, _, execPack_completes h, execUnpack_completes ⟨h.1, rfl⟩, ?_⟩
    rw [setWidth_sigField_toNat, hsig, storedField_of_inRange (BitVec.toNat_ne_iff_ne.2 hE) h1 h2, Nat.sub_add_cancel h1]

/-! ### PACK_RESULT, branch by branch -/

theorem packResult_of_overflow {p : Params} (s : Bool) {E : Nat} (R : Nat) (h : E > eMax p) :
    packResult p s ⟨E, R⟩ = infWord p s := if_pos h

/-- An exact zero, and a result that SUBNORMALS = OFF flushes (40_bit_codec.md R104). -/
theorem packResult_of_zero_or_flush {p : Params} (s : Bool) {R : Nat} (h : R = 0 ∨ p.subnormals = false) :
    packResult p s ⟨0, R⟩ = zeroWord s := by
  obtain h | h := h <;> simp [packResult, h]

/-- The subnormal branch cuts the significand to the field (40_bit_codec.md R104). -/
theorem packResult_of_subnormal {p : Params} (s : Bool) {R : Nat} (hR : R ≠ 0) (hon : p.subnormals = true) :
    packResult p s ⟨0, R⟩ = packFields s 0 (min R (2 ^ 53 - 1)) := by
  simp [packResult, hR, hon]

/-- The normal branch is PACK of the triple (40_bit_codec.md R101, R104). -/
theorem packResult_of_normal {p : Params} (s : Bool) {E R : Nat} (hE1 : 1 ≤ E) (hE2 : E ≤ eMax p) (h1 : 10 ^ 15 ≤ R)
    (h2 : R < 10 ^ 16) : packResult p s ⟨E, R⟩ = packTriple ⟨s, E, R⟩ := by
  have hE : E ≠ 0 := Nat.one_le_iff_ne_zero.1 hE1
  rw [packTriple_of_normal s hE h1 h2, packResult, if_neg (not_lt.2 hE2), if_neg hE]
  rfl

/-- Settles O50: each branch's word, and for the finite ones its class and triple. -/
theorem packResultClass : Obligations.PackResultClass := by
  intro p s E R hp hR hpre
  refine ⟨packResult_of_overflow s R, ?_, ?_, fun hE1 hE2 => ?_⟩
  · rintro rfl h
    exact packResult_of_zero_or_flush s h
  · rintro rfl h0 hon
    have hF0 : min R (2 ^ 53 - 1) ≠ 0 := by omega
    have hF : min R (2 ^ 53 - 1) < 2 ^ 53 := by omega
    rw [packResult_of_subnormal s h0 hon, dec_packFields s (by decide) hF, if_pos rfl]
    exact ⟨classify_packFields_subnormal p s hF0 hF, rfl⟩
  · have h1 : 10 ^ 15 ≤ R := hpre.resolve_left (Nat.one_le_iff_ne_zero.1 hE1)
    have h2 : R < 10 ^ 16 := by omega
    rw [packResult_of_normal s hE1 hE2 h1 h2]
    exact ⟨classify_packTriple_normal hp s hE1 hE2 h1 h2,
      dec_packTriple_normal s (Nat.one_le_iff_ne_zero.1 hE1) (hE2.trans_lt (eMax_lt hp)) h1 h2⟩

end Sys2Proof.Machine
end

section
/-! PROOFS of the decoder statements: the class of a word (41_decoder.md R121 to R123), the logical triple that DECODE drives
(R120, R124, R126), and its round trip with PACK (R125). -/

namespace Sys2Proof.Machine

/-! ### The class of a word (41_decoder.md R121) -/

theorem infField_lt {p : Params} (hp : admitted p = true) : infField p < 2 ^ 53 := by
  obtain ⟨-, hi, -⟩ | ⟨-, -, hi, -⟩ := infField_bounds hp
  · rw [hi]
    decide
  · exact hi.trans (by decide)

/-- Only infinity's two fields make its magnitude (30_encoding.md R61). -/
theorem magnitude_eq_infMag_iff {p : Params} (hp : admitted p = true) (w : Word) :
    (magnitude w).toNat = infMag p ↔ (expField w).toNat = 1023 ∧ (sigField w).toNat = infField p := by
  have hF := sigField_lt w
  have hI := infField_lt hp
  simp only [magnitude_eq, infMag, E_ALL1]
  omega

/-- A magnitude above infinity's has the all-ones exponent and a larger significand field (30_encoding.md R62). -/
theorem infMag_lt_magnitude_iff {p : Params} (hp : admitted p = true) (w : Word) :
    (magnitude w).toNat > infMag p ↔ (expField w).toNat = 1023 ∧ (sigField w).toNat > infField p := by
  have hE := expField_lt w
  have hF := sigField_lt w
  have hI := infField_lt hp
  simp only [magnitude_eq, infMag, E_ALL1]
  omega

/-- CLASS on the two fields of a word, its tests on the magnitude split (41_decoder.md R121). -/
theorem classify_eq_of_fields {p : Params} (hp : admitted p = true) (w : Word) :
    classify p w =
      if (expField w).toNat = 1023 ∧ (sigField w).toNat = infField p then .inf
      else if (expField w).toNat = 1023 ∧ (sigField w).toNat > infField p then .nan
      else if (expField w).toNat = 0 then (if (sigField w).toNat = 0 then .zero else .subnormal)
      else if (sigField w).toNat > STORED_MAX then .nan
      else .normal := by
  simp only [classify, magnitude_eq_infMag_iff hp, infMag_lt_magnitude_iff hp]

theorem classify_eq_zero_iff {p : Params} (hp : admitted p = true) (w : Word) :
    classify p w = .zero ↔ (expField w).toNat = 0 ∧ (sigField w).toNat = 0 := by
  rw [classify_eq_of_fields hp]
  split_ifs <;> simp <;> omega

theorem classify_eq_subnormal_iff {p : Params} (hp : admitted p = true) (w : Word) :
    classify p w = .subnormal ↔ (expField w).toNat = 0 ∧ (sigField w).toNat ≠ 0 := by
  rw [classify_eq_of_fields hp]
  split_ifs <;> simp <;> omega

theorem classify_eq_inf_iff {p : Params} (hp : admitted p = true) (w : Word) :
    classify p w = .inf ↔ (expField w).toNat = 1023 ∧ (sigField w).toNat = infField p := by
  rw [classify_eq_of_fields hp]
  split_ifs <;> simp <;> omega

theorem classify_eq_nan_iff {p : Params} (hp : admitted p = true) (w : Word) :
    classify p w = .nan ↔ ((expField w).toNat = 1023 ∧ (sigField w).toNat > infField p) ∨
      (1 ≤ (expField w).toNat ∧ (sigField w).toNat > STORED_MAX ∧
        ¬ ((expField w).toNat = 1023 ∧ (sigField w).toNat = infField p)) := by
  rw [classify_eq_of_fields hp]
  split_ifs <;> simp <;> omega

/-- Infinity's field lies at the bottom of the all-ones exponent or above every stored field, which is what E_MAX says
(00_scope.md R7). -/
theorem classify_eq_normal_iff {p : Params} (hp : admitted p = true) (w : Word) :
    classify p w = .normal ↔
      1 ≤ (expField w).toNat ∧ (expField w).toNat ≤ eMax p ∧ (sigField w).toNat ≤ STORED_MAX := by
  refine ⟨fun h => ?_, fun ⟨hE1, hE2, hF⟩ => classify_of_normal_fields hp hE1 hE2 hF⟩
  have hE := expField_lt w
  rw [classify_eq_of_fields hp] at h
  split_ifs at h
  obtain ⟨-, hi, he⟩ | ⟨-, hi, -, he⟩ := infField_bounds hp <;> omega

/-- Settles O15: the fields are parts of the word's number, and each class is a range of them. -/
theorem classFromFields : Obligations.ClassFromFields := by
  intro p w hp
  simp only [← expField_toNat, ← sigField_toNat]
  exact ⟨classify_eq_zero_iff hp w, classify_eq_subnormal_iff hp w, classify_eq_inf_iff hp w, classify_eq_nan_iff hp w,
    classify_eq_normal_iff hp w⟩

/-! ### What CLASS depends on (41_decoder.md R122) -/

theorem classify_flipSign (p : Params) (w : Word) : classify p (flipSign w) = classify p w := by
  obtain ⟨-, hE, hF, hm⟩ := flipSign_fields w
  simp only [classify, hE, hF, hm]

/-- CLASS reads the instance through INF_MAG alone. -/
theorem classify_congr {p q : Params} (h : infMag p = infMag q) (w : Word) : classify p w = classify q w := by
  simp only [classify, h]

theorem infMag_congr {p q : Params} (hs : p.specials = q.specials)
    (hi : p.specials = .extended → p.infSigExt = q.infSigExt) : infMag p = infMag q := by
  have hfield : infField p = infField q := by
    unfold infField
    rw [← hs]
    cases h : p.specials with
    | standard => rfl
    | extended => exact hi h
  simp only [infMag, hfield]

/-- Settles O16: the sign flip keeps every field that CLASS reads, and of the instance CLASS reads INF_MAG alone. -/
theorem classIgnoresSignAndSubnormals : Obligations.ClassIgnoresSignAndSubnormals :=
  ⟨classify_flipSign, fun _ _ w hs hi => classify_congr (infMag_congr hs hi) w⟩

/-! ### The logical triple (41_decoder.md R120, R126) -/

theorem dec_S_of_E_eq_zero {w : Word} (h : (dec w).E = 0) : (dec w).S = (sigField w).toNat := if_pos h

theorem dec_S_of_E_ne_zero {w : Word} (h : (dec w).E ≠ 0) : (dec w).S = (sigField w).toNat + 10 ^ 15 := if_neg h

/-- Settles O17: 16 digits for every finite word, the restored digit above exponent 0, the field's width at 0. -/
theorem finiteOperandBounds : Obligations.FiniteOperandBounds := by
  intro p w _ hw
  refine ⟨Nat.le_sub_one_of_lt (dec_S_lt_of_finite hw), fun hE => dec_S_ge (Nat.one_le_iff_ne_zero.1 hE), fun hE => ?_⟩
  rw [dec_S_of_E_eq_zero hE]
  exact Nat.le_sub_one_of_lt (sigField_lt w)

/-! ### DECODE (41_decoder.md R124) -/

theorem execDecode_completes {s : State} {w : Word} (h : PresentsA s w) :
    exec .decode s = .next (s.yieldsFields (BitVec.ofBool (dec w).sign) (BitVec.ofNat 10 (dec w).E)
      (BitVec.ofNat 54 (dec w).S) (classify s.params w).code) :=
  onA_completes h

theorem dec_E_lt (w : Word) : (dec w).E < 2 ^ 10 := expField_lt w

theorem ofNat_dec_E_toNat (w : Word) : (BitVec.ofNat 10 (dec w).E).toNat = (dec w).E :=
  Nat.mod_eq_of_lt (dec_E_lt w)

/-- The u_sig port carries the whole significand (00_scope.md R8). -/
theorem ofNat_dec_S_toNat (w : Word) : (BitVec.ofNat 54 (dec w).S).toNat = (dec w).S :=
  Nat.mod_eq_of_lt (dec_S_lt_two_pow w)

/-- Settles O22: DECODE drives the raw sign and exponent of the word, and the significand of its triple. -/
theorem decodeRestoresLeadingDigit : Obligations.DecodeRestoresLeadingDigit := by
  intro s w h
  have hsign : BitVec.ofBool (dec w).sign = BitVec.ofNat 1 (w.toNat / 2 ^ 63) := ofBool_signOf w
  have hE : (dec w).E = w.toNat / 2 ^ 53 % 2 ^ 10 := expField_toNat w
  have hexp : BitVec.ofNat 10 (dec w).E = BitVec.ofNat 10 (w.toNat / 2 ^ 53) :=
    BitVec.eq_of_toNat_eq ((ofNat_dec_E_toNat w).trans hE)
  refine ⟨BitVec.ofNat 54 (dec w).S, ?_, ?_⟩
  · rw [execDecode_completes h, hsign, hexp]
  · rw [← hE, ofNat_dec_S_toNat, ← sigField_toNat]
    exact ⟨dec_S_of_E_eq_zero, dec_S_of_E_ne_zero⟩

/-! ### The class codes (41_decoder.md R123) -/

/-- An operation that drives a class drives its code, and the others drive 0. -/
theorem uClass_le_of_outputsObey {p : Params} {i : Instr} {o : Outputs} (h : OutputsObey p i o) : o.uClass.toNat ≤ 4 := by
  have hzero : o.noFields → o.uClass.toNat ≤ 4 := fun ⟨_, _, _, hclass⟩ => by simp [hclass]
  cases i with
  | pack | shift | neg => exact hzero h
  | unpack | decode => exact h.2.2
  | add | sub | mul | div | reserved9 | reservedAB | reservedCF => exact hzero h.1

/-- Settles O23: a step ends in outputs that obey the rules of its operation. -/
theorem classCodesAreFixed : Obligations.ClassCodesAreFixed := by
  refine ⟨rfl, rfl, rfl, rfl, rfl, fun s t h => ?_⟩
  obtain ⟨-, _, o, -, hout, hobey⟩ := step_disciplined h
  exact ⟨o, hout, uClass_le_of_outputsObey hobey⟩

/-! ### PACK and DECODE (41_decoder.md R125) -/

/-- The stored field of a word's triple is the word's own, with or without a restored digit. -/
theorem storedField_dec (w : Word) : storedField (dec w).E (dec w).S = (sigField w).toNat := by
  have hF := sigField_lt w
  by_cases hE : (dec w).E = 0
  · rw [dec_S_of_E_eq_zero hE, hE, storedField_zero, Nat.mod_eq_of_lt hF]
  · rw [dec_S_of_E_ne_zero hE, storedField_of_inRange hE (by omega) (by omega), Nat.add_sub_cancel]

/-- PACK of a word's triple gives the word back, for every bit pattern. -/
theorem packTriple_dec (w : Word) : packTriple (dec w) = w :=
  calc packTriple (dec w) = packFields (signOf w) (expField w).toNat (sigField w).toNat :=
      congrArg (packFields (signOf w) (expField w).toNat) (storedField_dec w)
    _ = w := packFields_of_fields w

/-- DEC takes PACK of every triple of PACK's valid domain back (40_bit_codec.md R101). -/
theorem dec_packTriple_valid (s : Bool) {E S : Nat} (hE : E < 2 ^ 10) (h0 : E = 0 → S ≤ 2 ^ 53 - 1)
    (h1 : E ≠ 0 → 10 ^ 15 ≤ S ∧ S ≤ 10 ^ 15 + (2 ^ 53 - 1)) : dec (packTriple ⟨s, E, S⟩) = ⟨s, E, S⟩ := by
  rw [packTriple, dec_packFields s hE (storedField_lt E S)]
  by_cases hE0 : E = 0
  · have hS := h0 hE0
    rw [if_pos hE0, hE0, storedField_zero, Nat.mod_eq_of_lt (by omega)]
  · obtain ⟨hlow, hhigh⟩ := h1 hE0
    rw [if_neg hE0, storedField_of_inRange hE0 hlow hhigh,
      show S - 10 ^ 15 + N15 = S from Nat.sub_add_cancel hlow]

/-- The p_sign and u_sign ports carry the same bit. -/
theorem getLsbD_zero_ofBool (b : Bool) : (BitVec.ofBool b).getLsbD 0 = b := by cases b <;> rfl

theorem ofBool_getLsbD_zero : ∀ sg : BitVec 1, BitVec.ofBool (sg.getLsbD 0) = sg := by decide

/-- PACK on what DECODE drives for a word gives the word back. -/
theorem execPack_of_decoded {t : State} {w : Word}
    (h : PresentsPack t (BitVec.ofBool (dec w).sign) (BitVec.ofNat 10 (dec w).E) (BitVec.ofNat 54 (dec w).S)) :
    exec .pack t = .next (t.yields w) := by
  have hpack := execPack_completes h
  rw [getLsbD_zero_ofBool, ofNat_dec_E_toNat, ofNat_dec_S_toNat] at hpack
  rwa [← packTriple_dec w]

/-- DECODE of what PACK drives for a triple of PACK's valid domain gives the triple back. -/
theorem execDecode_of_packed {t : State} {sg : BitVec 1} {E : BitVec 10} {S : BitVec 54}
    (h : PresentsA t (packTriple ⟨sg.getLsbD 0, E.toNat, S.toNat⟩)) (h0 : E = 0 → S.toNat ≤ 2 ^ 53 - 1)
    (h1 : E ≠ 0 → 10 ^ 15 ≤ S.toNat ∧ S.toNat ≤ 10 ^ 15 + (2 ^ 53 - 1)) :
    exec .decode t = .next (t.yieldsFields sg E S
      (classify t.params (packTriple ⟨sg.getLsbD 0, E.toNat, S.toNat⟩)).code) := by
  have hdec := dec_packTriple_valid (sg.getLsbD 0) E.isLt (fun hE => h0 (BitVec.eq_of_toNat_eq hE))
    (fun hE => h1 (BitVec.toNat_ne_iff_ne.1 hE))
  rw [execDecode_completes h, hdec, ofBool_getLsbD_zero, BitVec.ofNat_toNat, BitVec.ofNat_toNat, BitVec.setWidth_eq,
    BitVec.setWidth_eq]

/-- Settles O25: PACK's placement and DEC undo each other on words and on PACK's valid domain, and the ports carry every
triple whole. -/
theorem packAndDecodeRoundTrip : Obligations.PackAndDecodeRoundTrip :=
  ⟨fun _ _ h => ⟨_, _, _, _, execDecode_completes h, execPack_of_decoded ⟨h.1, rfl, rfl, rfl⟩⟩,
   fun _ _ _ _ h h0 h1 => ⟨_, _, execPack_completes h, execDecode_of_packed ⟨h.1, rfl⟩ h0 h1⟩⟩

end Sys2Proof.Machine
end

section
/-! PROOFS of the digit shifter's statements: where SHIFT10 is an exact division or product (42_digit_shifter.md R142), and
SHIFT by the ranges of its count (R141). -/

namespace Sys2Proof.Machine

/-! ### SHIFT10 (42_digit_shifter.md R140, R142) -/

theorem shift10_zero_count (v : Nat) : shift10 v 0 = v % 2 ^ 64 := by
  simpa using shift10_left v 0

theorem shift10_right_of_le_fifteen (v : Nat) {k : Nat} (hpos : 0 < k) (hk : k ≤ 15) :
    shift10 v (-(k : Int)) = v / 10 ^ k := by
  rw [shift10_right v k hpos, if_neg (Nat.not_lt.2 hk)]

/-- Sixteen digits to the right is past the shifter's limit, however long the value. -/
theorem shift10_right_of_ge_sixteen (v : Nat) {k : Nat} (hk : 16 ≤ k) : shift10 v (-(k : Int)) = 0 := by
  rw [shift10_right v k (by omega), if_pos (show 15 < k from hk)]

/-- A value of at most 16 digits has none left where the shifter gives 0, so its right shift always divides. -/
theorem shift10_right_of_lt {v : Nat} (hv : v < 10 ^ 16) (k : Nat) : shift10 v (-(k : Int)) = v / 10 ^ k := by
  obtain rfl | hpos := Nat.eq_zero_or_pos k
  · simpa using (shift10_zero_count v).trans (Nat.mod_eq_of_lt (by omega))
  · obtain hk | hk := Nat.lt_or_ge 15 k
    · have hlost : v < 10 ^ k := hv.trans_le (Nat.pow_le_pow_right (by decide) hk)
      rw [shift10_right_of_ge_sixteen v hk, Nat.div_eq_of_lt hlost]
    · exact shift10_right_of_le_fifteen v hpos hk

theorem shift10_left_of_lt {v k : Nat} (h : v * 10 ^ k < 2 ^ 64) : shift10 v k = v * 10 ^ k := by
  rw [shift10_left, Nat.mod_eq_of_lt h]

/-- Settles O27: fifteen digits is the limit of a right shift, and a left shift wraps only from 2^64 on. -/
theorem digitShiftIsExactDivision : Obligations.DigitShiftIsExactDivision :=
  ⟨fun v _ _ hpos hk => shift10_right_of_le_fifteen v hpos hk, fun _ k hv => shift10_right_of_lt hv k,
   fun v _ hk => shift10_right_of_ge_sixteen v hk, fun _ _ h => shift10_left_of_lt h⟩

/-! ### SHIFT (42_digit_shifter.md R141) -/

/-- A 64-bit value stays within 64 bits: a right shift does not grow it, and a left shift wraps. -/
theorem shift10_lt {v : Nat} (hv : v < 2 ^ 64) (k : Int) : shift10 v k < 2 ^ 64 := by
  obtain ⟨m, rfl | rfl⟩ := k.eq_nat_or_neg
  · rw [shift10_left]
    exact Nat.mod_lt _ (by decide)
  · exact (shift10_neg_le v m).trans_lt hv

/-- The y port carries SHIFT10's result whole. -/
theorem shiftWord_toNat (a : Word) (n : BitVec 8) : (shiftWord a n).toNat = shift10 a.toNat n.toInt :=
  Nat.mod_eq_of_lt (shift10_lt a.isLt n.toInt)

theorem shiftWord_toNat_of_neg (a : Word) {n : BitVec 8} (hn : n.toInt < 0) :
    (shiftWord a n).toNat = shift10 a.toNat (-(n.toInt.natAbs : Int)) := by
  rw [shiftWord_toNat, Int.ofNat_natAbs_of_nonpos hn.le, neg_neg]

theorem shiftWord_toNat_of_nonneg (a : Word) {n : BitVec 8} (hn : 0 ≤ n.toInt) :
    (shiftWord a n).toNat = a.toNat * 10 ^ n.toInt.natAbs % 2 ^ 64 := by
  rw [shiftWord_toNat, ← shift10_left, Int.natAbs_of_nonneg hn]

/-- Settles O26: SHIFT drives SHIFT10 of the count's magnitude, to the right for a negative count and to the left otherwise. -/
theorem shiftMovesDigits : Obligations.ShiftMovesDigits := by
  intro s a n ha hn
  refine ⟨shiftWord a n, execShift_completes ha hn, fun hfar => ?_, fun hnear hneg => ?_, shiftWord_toNat_of_nonneg a⟩
  · refine BitVec.eq_of_toNat_eq (show (shiftWord a n).toNat = 0 from ?_)
    rw [shiftWord_toNat_of_neg a (by omega), shift10_right_of_ge_sixteen _ (by omega)]
  · rw [shiftWord_toNat_of_neg a hneg, shift10_right_of_le_fifteen _ (by omega) (by omega)]

end Sys2Proof.Machine
end

section
/-! PROOFS of the adder's statements: ADD's special operands (43_adder_subtractor.md R151), its sums and differences at equal and
at unequal exponents (R153 to R160), the bounds behind the unequal path (R157, R165), the laws of ADD (R164), and NEG and SUB
(R162, R163). -/

namespace Sys2Proof.Machine

/-! ### The transactions -/

theorem execAdd_completes {s : State} {a b : Word} (h : PresentsAB s a b) :
    exec .add s = .next (s.yields (addWords s.params a b)) :=
  onAB_completes h

theorem execSub_completes {s : State} {a b : Word} (h : PresentsAB s a b) :
    exec .sub s = .next (s.yields (addWords s.params a (flipSign b))) :=
  onAB_completes h

theorem execNeg_completes {s : State} {a : Word} (h : PresentsA s a) : exec .neg s = .next (s.yields (flipSign a)) :=
  onA_completes h

/-! ### NEG (43_adder_subtractor.md R162) -/

theorem flipSign_flipSign (w : Word) : flipSign (flipSign w) = w := by
  simp [flipSign]

/-- Settles O34: the sign flip is an exclusive or with bit 63 alone, so it undoes itself. -/
theorem negFlipsSignBit : Obligations.NegFlipsSignBit := by
  intro s w h
  obtain ⟨hsign, -⟩ := flipSign_fields w
  refine ⟨flipSign w, execNeg_completes h, hsign, fun j hj => ?_, ?_⟩
  · rw [flipSign, BitVec.getLsbD_xor, signBit_getLsbD hj, Bool.xor_false]
  · have hback := execNeg_completes (s := s.present { s.inp with a := some (flipSign w) }) ⟨h.1, rfl⟩
    rwa [flipSign_flipSign] at hback

/-! ### Special operands (43_adder_subtractor.md R151) -/

/-- An infinity has no bits but its sign and INF_MAG (30_encoding.md R61). -/
theorem infWord_signOf {p : Params} (hp : admitted p = true) {w : Word} (h : classify p w = .inf) :
    infWord p (signOf w) = w := by
  obtain ⟨hE, hF⟩ := (classify_eq_inf_iff hp w).1 h
  apply BitVec.eq_of_toNat_eq
  rw [infWord_toNat p _ (Nat.lt_of_succ_lt (infMag_lt hp)), word_toNat_eq w, hE, hF, Nat.add_assoc]
  rfl

theorem addWords_of_nan {p : Params} {a b : Word} (h : classify p a = .nan ∨ classify p b = .nan) :
    addWords p a b = qnan p := if_pos h

theorem addWords_of_inf_inf {p : Params} {a b : Word} (ha : classify p a = .inf) (hb : classify p b = .inf) :
    addWords p a b = if signOf a = signOf b then infWord p (signOf a) else qnan p := by
  simp [addWords, ha, hb]

theorem addWords_of_inf_finite {p : Params} {a b : Word} (ha : classify p a = .inf) (hb : finite p b = true) :
    addWords p a b = infWord p (signOf a) := by
  simp [addWords, ha, finite_not_special hb]

theorem addWords_of_finite_inf {p : Params} {a b : Word} (ha : finite p a = true) (hb : classify p b = .inf) :
    addWords p a b = infWord p (signOf b) := by
  simp [addWords, hb, finite_not_special ha]

/-- Settles O28: the four kinds of special operands, each infinity being its own word. -/
theorem addSpecialOperands : Obligations.AddSpecialOperands := by
  intro s a b h
  rw [execAdd_completes h]
  refine ⟨fun hnan => ?_, fun ha hb => ⟨fun hs => ?_, fun hs => ?_⟩, fun ha hb => ?_, fun ha hb => ?_⟩
  · rw [addWords_of_nan hnan]
  · rw [addWords_of_inf_inf ha hb, if_pos hs, infWord_signOf h.1 ha]
  · rw [addWords_of_inf_inf ha hb, if_neg hs]
  · rw [addWords_of_inf_finite ha hb, infWord_signOf h.1 ha]
  · rw [addWords_of_finite_inf ha hb, infWord_signOf h.1 hb]

/-! ### The equal path (43_adder_subtractor.md R153) -/

theorem addEqual_of_sign_eq {x y : Triple} (hs : x.sign = y.sign) : addEqual x y = ⟨x.sign, x.E, x.S + y.S⟩ := if_pos hs

theorem addEqual_of_gt {x y : Triple} (hs : x.sign ≠ y.sign) (h : y.S < x.S) :
    addEqual x y = ⟨x.sign, x.E, x.S - y.S⟩ := by
  have habs : ((x.S : Int) - y.S).natAbs = x.S - y.S := by omega
  rw [addEqual, if_neg hs, if_pos h, habs]

theorem addEqual_of_lt {x y : Triple} (hs : x.sign ≠ y.sign) (h : x.S < y.S) :
    addEqual x y = ⟨y.sign, x.E, y.S - x.S⟩ := by
  have habs : ((x.S : Int) - y.S).natAbs = y.S - x.S := by omega
  rw [addEqual, if_neg hs, if_neg h.not_gt, if_pos h, habs]

/-- A difference that cancels takes the positive sign (43_adder_subtractor.md R153). -/
theorem addEqual_of_cancel {x y : Triple} (hs : x.sign ≠ y.sign) (h : x.S = y.S) : addEqual x y = ⟨false, x.E, 0⟩ := by
  simp [addEqual, hs, h]

theorem addEqual_comm {x y : Triple} (hE : x.E = y.E) : addEqual x y = addEqual y x := by
  by_cases hs : x.sign = y.sign
  · rw [addEqual_of_sign_eq hs, addEqual_of_sign_eq hs.symm, hs, hE, Nat.add_comm]
  · obtain h | h | h := Nat.lt_trichotomy x.S y.S
    · rw [addEqual_of_lt hs h, addEqual_of_gt (Ne.symm hs) h, hE]
    · rw [addEqual_of_cancel hs h, addEqual_of_cancel (Ne.symm hs) h.symm, hE]
    · rw [addEqual_of_gt hs h, addEqual_of_lt (Ne.symm hs) h, hE]

/-! ### The unequal path (43_adder_subtractor.md R154 to R157) -/

/-- A significand of 16 digits is aligned by an exact division, however wide the gap (43_adder_subtractor.md R156). -/
theorem alignCombine_eq (sL sM : Bool) (L : Nat) {M : Nat} (hM : M < 10 ^ 16) (expn d : Nat) :
    alignCombine sL sM L M expn d = ⟨sL, expn, if sL = sM then L + M / 10 ^ d else L - M / 10 ^ d⟩ := by
  unfold alignCombine
  rw [shift10_right_of_lt hM d]
  split_ifs <;> rfl

theorem addUnequal_of_sign_eq {big small : Triple} (hM : small.S < 10 ^ 16) (hs : big.sign = small.sign) :
    addUnequal big small = ⟨big.sign, big.E, big.S + small.S / 10 ^ (big.E - small.E)⟩ := by
  rw [addUnequal, if_neg (fun hguard => hguard.1 hs), alignCombine_eq _ _ _ hM, if_pos hs]

theorem addUnequal_of_unguarded {big small : Triple} (hM : small.S < 10 ^ 16) (hs : big.sign ≠ small.sign)
    (h : 2 * 10 ^ 15 ≤ big.S) :
    addUnequal big small = ⟨big.sign, big.E, big.S - small.S / 10 ^ (big.E - small.E)⟩ := by
  rw [addUnequal, if_neg (fun hguard => h.not_gt hguard.2), alignCombine_eq _ _ _ hM, if_neg hs]

/-- The cancellation guard: one more digit, one exponent lower (43_adder_subtractor.md R155). -/
theorem addUnequal_of_guarded {big small : Triple} (hM : small.S < 10 ^ 16) (hs : big.sign ≠ small.sign)
    (h : big.S < 2 * 10 ^ 15) :
    addUnequal big small = ⟨big.sign, big.E - 1, big.S * 10 - small.S / 10 ^ (big.E - small.E - 1)⟩ := by
  rw [addUnequal, if_pos ⟨hs, h⟩, alignCombine_eq _ _ _ hM, if_neg hs]

/-- Across a gap the small significand keeps at most 15 digits (43_adder_subtractor.md R157). -/
theorem aligned_lt {M d : Nat} (hM : M < 10 ^ 16) (hd : 0 < d) : M / 10 ^ d < 10 ^ 15 :=
  calc M / 10 ^ d ≤ M / 10 ^ 1 := Nat.div_le_div_left (Nat.pow_le_pow_right (by decide) hd) (by decide)
    _ < 10 ^ 15 := by omega

/-- The guarded large significand has 17 digits, beside which the small one still has 16 (43_adder_subtractor.md R157). -/
theorem addUnequal_R_bounds {big small : Triple} (hL1 : 10 ^ 15 ≤ big.S) (hL2 : big.S < 10 ^ 16) (hM : small.S < 10 ^ 16)
    (hE : small.E < big.E) : 0 < (addUnequal big small).mag.R ∧ (addUnequal big small).mag.R < 2 * 10 ^ 16 := by
  have haligned : small.S / 10 ^ (big.E - small.E) < 10 ^ 15 := aligned_lt hM (Nat.sub_pos_of_lt hE)
  have hguarded : small.S / 10 ^ (big.E - small.E - 1) < 10 ^ 16 := (Nat.div_le_self _ _).trans_lt hM
  generalize hA : small.S / 10 ^ (big.E - small.E) = A at haligned
  generalize hG : small.S / 10 ^ (big.E - small.E - 1) = G at hguarded
  by_cases hs : big.sign = small.sign
  · rw [addUnequal_of_sign_eq hM hs, hA]
    constructor <;> dsimp only <;> omega
  · obtain hten | hten := Nat.lt_or_ge big.S (2 * 10 ^ 15)
    · rw [addUnequal_of_guarded hM hs hten, hG]
      constructor <;> dsimp only <;> omega
    · rw [addUnequal_of_unguarded hM hs hten, hA]
      constructor <;> dsimp only <;> omega

/-- Settles O31: the large significand has 16 digits, since its exponent is above 0, and the aligned small one at most 15, or 16
where the guard gives the large one a 17th. -/
theorem adderLargeSideWins : Obligations.AdderLargeSideWins := by
  intro p big small _ hbig hsmall hE
  have hL1 : 10 ^ 15 ≤ (dec big).S := dec_S_ge (Nat.ne_zero_of_lt hE)
  have hL2 : (dec big).S < 10 ^ 16 := dec_S_lt_of_finite hbig
  have hM : (dec small).S < 10 ^ 16 := dec_S_lt_of_finite hsmall
  refine ⟨(aligned_lt hM (Nat.sub_pos_of_lt hE)).trans_le hL1, fun hten => ⟨?_, by omega⟩,
    addUnequal_R_bounds hL1 hL2 hM hE⟩
  calc (dec small).S / 10 ^ ((dec big).E - (dec small).E - 1) ≤ (dec small).S := Nat.div_le_self _ _
    _ < (dec big).S * 10 := by omega

/-! ### Which path (43_adder_subtractor.md R150) -/

theorem addTriples_of_E_eq {x y : Triple} (h : x.E = y.E) : addTriples x y = addEqual x y := if_pos h

theorem addTriples_of_E_gt {x y : Triple} (h : y.E < x.E) : addTriples x y = addUnequal x y := by
  rw [addTriples, if_neg h.ne', if_pos h]

theorem addTriples_of_E_lt {x y : Triple} (h : x.E < y.E) : addTriples x y = addUnequal y x := by
  rw [addTriples, if_neg h.ne, if_neg h.not_gt]

theorem addTriples_comm (x y : Triple) : addTriples x y = addTriples y x := by
  obtain h | h | h := Nat.lt_trichotomy x.E y.E
  · rw [addTriples_of_E_lt h, addTriples_of_E_gt h]
  · rw [addTriples_of_E_eq h, addTriples_of_E_eq h.symm, addEqual_comm h]
  · rw [addTriples_of_E_gt h, addTriples_of_E_lt h]

/-! ### Commutativity (43_adder_subtractor.md R164) -/

theorem addFinite_comm (p : Params) (a b : Word) : addFinite p a b = addFinite p b a := by
  rw [addFinite, addTriples_comm, addFinite]

theorem special_or_finite (p : Params) (w : Word) : classify p w = .nan ∨ classify p w = .inf ∨ finite p w = true := by
  cases h : classify p w <;> simp [finite, h]

theorem addWords_comm (p : Params) (a b : Word) : addWords p a b = addWords p b a := by
  obtain ha | ha | ha := special_or_finite p a
  · rw [addWords_of_nan (.inl ha), addWords_of_nan (.inr ha)]
  · obtain hb | hb | hb := special_or_finite p b
    · rw [addWords_of_nan (.inr hb), addWords_of_nan (.inl hb)]
    · rw [addWords_of_inf_inf ha hb, addWords_of_inf_inf hb ha]
      by_cases hs : signOf a = signOf b
      · rw [if_pos hs, if_pos hs.symm, hs]
      · rw [if_neg hs, if_neg (Ne.symm hs)]
    · rw [addWords_of_inf_finite ha hb, addWords_of_finite_inf hb ha]
  · obtain hb | hb | hb := special_or_finite p b
    · rw [addWords_of_nan (.inr hb), addWords_of_nan (.inl hb)]
    · rw [addWords_of_finite_inf ha hb, addWords_of_inf_finite hb ha]
    · rw [addWords_finite ha hb, addWords_finite hb ha, addFinite_comm]

/-- Settles O32: the paths of ADD treat the two operands alike. -/
theorem addIsCommutative : Obligations.AddIsCommutative := by
  intro s t a b hs ht hp
  refine ⟨_, execAdd_completes hs, ?_⟩
  rw [execAdd_completes ht, addWords_comm, hp]

/-! ### Carry-out, renormalization and encoding of a zero and of a finite word (43_adder_subtractor.md R158 to R160) -/

theorem renormUp_zero (e : Nat) : renormUp e 0 = ⟨0, 0⟩ := by
  induction e with
  | zero => rfl
  | succ e ih => simpa [renormUp] using ih

theorem renormUp_of_ge (e : Nat) {R : Nat} (h : 10 ^ 15 ≤ R) : renormUp e R = ⟨e, R⟩ := by
  cases e with
  | zero => rfl
  | succ e => exact if_neg (Nat.not_lt.2 h)

/-- An exact zero loses its exponent and keeps its sign (40_bit_codec.md R104). -/
theorem finishResult_zero (p : Params) (s : Bool) (e : Nat) : finishResult p s ⟨e, 0⟩ = zeroWord s := by
  rw [finishResult, carryOut_of_lt (by decide), renormUp_zero, packResult_of_zero_or_flush s (.inl rfl)]

theorem finishResult_of_normal (p : Params) (s : Bool) (e : Nat) {R : Nat} (h1 : 10 ^ 15 ≤ R) (h2 : R < 10 ^ 16) :
    finishResult p s ⟨e, R⟩ = packResult p s ⟨e, R⟩ := by
  rw [finishResult, carryOut_of_lt h2, renormUp_of_ge e h1]

/-- A zero digit that the guard appended is carried out again (43_adder_subtractor.md R155, R158). -/
theorem finishResult_mul_ten (p : Params) (s : Bool) (e : Nat) {R : Nat} (h1 : 10 ^ 15 ≤ R) (h2 : R < 10 ^ 16) :
    finishResult p s ⟨e, R * 10⟩ = finishResult p s ⟨e + 1, R⟩ := by
  rw [finishResult_of_normal p s _ h1 h2, finishResult, carryOut_of_ge (by omega), Nat.mul_div_cancel _ (by decide),
    renormUp_of_ge _ h1]

/-- A normal significand has exactly 16 digits (41_decoder.md R126). -/
theorem dec_S_bounds_of_normal {p : Params} (hp : admitted p = true) {x : Word} (h : classify p x = .normal) :
    10 ^ 15 ≤ (dec x).S ∧ (dec x).S < 10 ^ 16 := by
  obtain ⟨hE, -, -⟩ := (classify_eq_normal_iff hp x).1 h
  exact ⟨dec_S_ge (Nat.one_le_iff_ne_zero.1 hE), dec_S_lt_of_finite (p := p) (by simp [finite, h])⟩

theorem finishResult_dec_normal {p : Params} (hp : admitted p = true) {x : Word} (h : classify p x = .normal) :
    finishResult p (signOf x) ⟨(dec x).E, (dec x).S⟩ = x := by
  obtain ⟨hE1, hE2, -⟩ := (classify_eq_normal_iff hp x).1 h
  obtain ⟨h1, h2⟩ := dec_S_bounds_of_normal hp h
  rw [finishResult_of_normal p _ _ h1 h2]
  exact (packResult_of_normal _ hE1 hE2 h1 h2).trans (packTriple_dec x)

/-- SUBNORMALS = OFF flushes a subnormal word to the zero of its sign (40_bit_codec.md R104). -/
theorem finishResult_dec_subnormal {p : Params} (hp : admitted p = true) {x : Word} (h : classify p x = .subnormal) :
    finishResult p (signOf x) ⟨(dec x).E, (dec x).S⟩ = if p.subnormals then x else zeroWord (signOf x) := by
  obtain ⟨hE, hF⟩ := (classify_eq_subnormal_iff hp x).1 h
  have hlt := sigField_lt x
  rw [show (dec x).E = 0 from hE, dec_S_of_E_eq_zero hE, finishResult, carryOut_of_lt (by omega), renormUp]
  by_cases hon : p.subnormals = true
  · rw [packResult_of_subnormal _ hF hon, if_pos hon, Nat.min_eq_left (by omega), ← hE, packFields_of_fields]
  · rw [packResult_of_zero_or_flush _ (.inr (Bool.eq_false_of_not_eq_true hon)), if_neg hon]

/-! ### Sums and differences of finite operands (43_adder_subtractor.md R153 to R160) -/

theorem addFinite_of_addTriples {p : Params} {a b : Word} {s : Bool} {e R : Nat}
    (h : addTriples (dec a) (dec b) = ⟨s, e, R⟩) : addFinite p a b = finishResult p s ⟨e, R⟩ := by
  rw [addFinite, h]

theorem addFinite_roundsTo {p : Params} (hp : admitted p = true) {a b : Word} (ha : finite p a = true)
    (hb : finite p b = true) {s : Bool} {e R : Nat} (h : addTriples (dec a) (dec b) = ⟨s, e, R⟩) :
    RoundsTo p s e R (addFinite p a b) := by
  have hR := addTriples_R_lt (dec_S_lt_of_finite ha) (dec_S_lt_of_finite hb)
  rw [h] at hR
  rw [addFinite_of_addTriples h]
  exact finishResult_roundsTo hp s hR

/-- Settles O29: the equal path by the signs and the order of the significands. -/
theorem addEqualExponents : Obligations.AddEqualExponents := by
  intro s a b h ha hb hE
  have hpath := addTriples_of_E_eq hE
  rw [execAdd_completes h, addWords_finite ha hb]
  refine ⟨_, rfl, fun hs => ?_, fun hs hgt => ?_, fun hs hlt => ?_, fun hs heq => ?_⟩
  · exact addFinite_roundsTo h.1 ha hb (hpath.trans (addEqual_of_sign_eq hs))
  · exact addFinite_roundsTo h.1 ha hb (hpath.trans (addEqual_of_gt hs hgt))
  · exact addFinite_roundsTo h.1 ha hb (hpath.trans (addEqual_of_lt hs hlt))
  · rw [addFinite_of_addTriples (hpath.trans (addEqual_of_cancel hs heq)), finishResult_zero]
    rfl

/-- Settles O30: the unequal path with the guard and without, whichever port carries the large operand. -/
theorem addUnequalExponents : Obligations.AddUnequalExponents := by
  intro s a b big small h ha hb hports hE
  have hpath : addTriples (dec a) (dec b) = addUnequal (dec big) (dec small) := by
    obtain ⟨rfl, rfl⟩ | ⟨rfl, rfl⟩ := hports
    · exact addTriples_of_E_gt hE
    · exact addTriples_of_E_lt hE
  have hM : (dec small).S < 10 ^ 16 := by
    obtain ⟨-, rfl⟩ | ⟨-, rfl⟩ := hports
    · exact dec_S_lt_of_finite hb
    · exact dec_S_lt_of_finite ha
  rw [execAdd_completes h, addWords_finite ha hb]
  refine ⟨_, rfl, fun hs => ?_, fun hs hten => ?_, fun hs hten => ?_⟩
  · exact addFinite_roundsTo h.1 ha hb (hpath.trans (addUnequal_of_sign_eq hM hs))
  · exact addFinite_roundsTo h.1 ha hb (hpath.trans (addUnequal_of_unguarded hM hs hten))
  · exact addFinite_roundsTo h.1 ha hb (hpath.trans (addUnequal_of_guarded hM hs hten))

/-! ### Adding a zero (43_adder_subtractor.md R164) -/

theorem dec_of_zero {p : Params} (hp : admitted p = true) {z : Word} (h : classify p z = .zero) :
    dec z = ⟨signOf z, 0, 0⟩ := by
  obtain ⟨hE, hF⟩ := (classify_eq_zero_iff hp z).1 h
  simp [dec, hE, hF]

theorem addEqual_of_zero {x y : Triple} (hx : 0 < x.S) (hy : y.S = 0) : addEqual x y = ⟨x.sign, x.E, x.S⟩ := by
  by_cases hs : x.sign = y.sign
  · rw [addEqual_of_sign_eq hs, hy, Nat.add_zero]
  · rw [addEqual_of_gt hs (hy ▸ hx), hy, Nat.sub_zero]

theorem alignCombine_zero (sL sM : Bool) (L expn d : Nat) : alignCombine sL sM L 0 expn d = ⟨sL, expn, L⟩ := by
  simp [alignCombine, shift10]

/-- A zero aligns to nothing, which leaves the large operand or, under the guard, the large operand one digit longer. -/
theorem addUnequal_of_zero {big small : Triple} (h : small.S = 0) :
    addUnequal big small = ⟨big.sign, big.E, big.S⟩ ∨ addUnequal big small = ⟨big.sign, big.E - 1, big.S * 10⟩ := by
  rw [addUnequal, h]
  split_ifs
  · exact .inr (alignCombine_zero ..)
  · exact .inl (alignCombine_zero ..)

theorem addFinite_normal_zero {p : Params} (hp : admitted p = true) {x z : Word} (hx : classify p x = .normal)
    (hz : classify p z = .zero) : addFinite p x z = x := by
  obtain ⟨hE, -, -⟩ := (classify_eq_normal_iff hp x).1 hx
  obtain ⟨h1, h2⟩ := dec_S_bounds_of_normal hp hx
  have hpath : addTriples (dec x) (dec z) = addUnequal (dec x) ⟨signOf z, 0, 0⟩ := by
    rw [dec_of_zero hp hz]
    exact addTriples_of_E_gt hE
  refine Eq.trans ?_ (finishResult_dec_normal hp hx)
  obtain h | h := addUnequal_of_zero (big := dec x) (small := ⟨signOf z, 0, 0⟩) rfl
  · exact addFinite_of_addTriples (hpath.trans h)
  · rw [addFinite_of_addTriples (hpath.trans h), finishResult_mul_ten p _ _ h1 h2,
      show (dec x).E - 1 + 1 = (dec x).E from Nat.sub_add_cancel hE]
    rfl

theorem addFinite_subnormal_zero {p : Params} (hp : admitted p = true) {x z : Word} (hx : classify p x = .subnormal)
    (hz : classify p z = .zero) : addFinite p x z = if p.subnormals then x else zeroWord (signOf x) := by
  obtain ⟨hE, hF⟩ := (classify_eq_subnormal_iff hp x).1 hx
  have hpos : 0 < (dec x).S := by
    rw [dec_S_of_E_eq_zero hE]
    exact Nat.pos_of_ne_zero hF
  have hpath : addTriples (dec x) (dec z) = ⟨(dec x).sign, (dec x).E, (dec x).S⟩ := by
    rw [dec_of_zero hp hz]
    exact (addTriples_of_E_eq hE).trans (addEqual_of_zero hpos rfl)
  exact (addFinite_of_addTriples hpath).trans (finishResult_dec_subnormal hp hx)

theorem addFinite_zero_zero {p : Params} (hp : admitted p = true) {x z : Word} (hx : classify p x = .zero)
    (hz : classify p z = .zero) : addFinite p x z = zeroWord (signOf x && signOf z) := by
  have hpath : addTriples (dec x) (dec z) = ⟨signOf x && signOf z, 0, 0⟩ := by
    rw [dec_of_zero hp hx, dec_of_zero hp hz]
    cases signOf x <;> cases signOf z <;> rfl
  rw [addFinite_of_addTriples hpath, finishResult_zero]

/-- Settles O33: the three classes of a finite word. -/
theorem addZeroIsIdentity : Obligations.AddZeroIsIdentity := by
  intro s x z h hx hz
  rw [execAdd_completes h, addWords_finite hx (by simp [finite, hz])]
  refine ⟨fun hn => ?_, fun hsub => ?_, fun h0 => ?_⟩
  · rw [addFinite_normal_zero h.1 hn hz]
  · rw [addFinite_subnormal_zero h.1 hsub hz]
  · rw [addFinite_zero_zero h.1 h0 hz]

/-! ### SUB (43_adder_subtractor.md R163) -/

/-- Settles O35: both transactions complete with ADD of a and the flipped b. -/
theorem subIsAddOfNegated : Obligations.SubIsAddOfNegated :=
  fun _ _ _ h => ⟨_, execAdd_completes ⟨h.1, h.2.1, rfl⟩, execSub_completes h⟩

theorem finite_flipSign (p : Params) (w : Word) : finite p (flipSign w) = finite p w := by
  simp only [finite, classify_flipSign]

theorem dec_flipSign (w : Word) :
    (dec (flipSign w)).sign = !(dec w).sign ∧ (dec (flipSign w)).E = (dec w).E ∧ (dec (flipSign w)).S = (dec w).S := by
  obtain ⟨hs, hE, hF, -⟩ := flipSign_fields w
  simp only [dec, hs, hE, hF, and_self]

theorem addWords_flipSign_self_of_finite {p : Params} {x : Word} (hx : finite p x = true) :
    addWords p x (flipSign x) = zeroWord false := by
  obtain ⟨hsign, hE, hS⟩ := dec_flipSign x
  have hs : (dec x).sign ≠ (dec (flipSign x)).sign := by simp [hsign]
  have hpath := (addTriples_of_E_eq hE.symm).trans (addEqual_of_cancel hs hS.symm)
  rw [addWords_finite hx ((finite_flipSign p x).trans hx), addFinite_of_addTriples hpath, finishResult_zero]

theorem addWords_flipSign_self_of_not_finite {p : Params} {x : Word} (hx : finite p x = false) :
    addWords p x (flipSign x) = qnan p := by
  obtain h | h | h := special_or_finite p x
  · exact addWords_of_nan (.inl h)
  · obtain ⟨hs, -⟩ := flipSign_fields x
    rw [addWords_of_inf_inf h ((classify_flipSign p x).trans h), hs, if_neg (by simp)]
  · simp [hx] at h

/-- Settles O36: a finite difference cancels on the equal path, and an infinity meets the opposite one. -/
theorem subSelfIsPositiveZero : Obligations.SubSelfIsPositiveZero := by
  intro s x h
  rw [execSub_completes h]
  refine ⟨fun hx => ?_, fun hx => ?_⟩
  · rw [addWords_flipSign_self_of_finite hx]
    rfl
  · rw [addWords_flipSign_self_of_not_finite hx]

end Sys2Proof.Machine
end

section
/-! PROOFS of the multiplier's statements: MUL's special operands (44_multiplier.md R181), its finite products (R182 to R185), the
laws of MUL (R186), and the exact product behind a normal result (R183, 30_encoding.md R57). -/

namespace Sys2Proof.Machine

/-! ### The transaction -/

theorem execMul_completes {s : State} {a b : Word} (h : PresentsAB s a b) :
    exec .mul s = .next (s.yields (mulWords s.params a b)) :=
  onAB_completes h

/-! ### Commutativity (44_multiplier.md R186) -/

theorem mulTriples_comm (p : Params) (s : Bool) (x y : Triple) : mulTriples p s x y = mulTriples p s y x := by
  have hexpn : mulExponent x y = mulExponent y x := by simp only [mulExponent, Int.add_comm]
  simp only [mulTriples, hexpn, Nat.mul_comm x.S]

/-- Each check of R181 names the two operands in either order. -/
theorem mulWords_comm (p : Params) (a b : Word) : mulWords p a b = mulWords p b a :=
  if_congr or_comm rfl <| if_congr (or_comm.trans (or_congr and_comm and_comm)) rfl <|
    if_congr or_comm (by rw [Bool.xor_comm]) (by rw [Bool.xor_comm, mulTriples_comm])

/-- Settles O39: MUL's checks, exponent and product treat the two operands alike. -/
theorem mulIsCommutative : Obligations.MulIsCommutative := by
  intro s t a b hs ht hp
  refine ⟨_, execMul_completes hs, ?_⟩
  rw [execMul_completes ht, mulWords_comm, hp]

/-! ### Special operands (44_multiplier.md R181) -/

theorem mulWords_of_nan {p : Params} {a b : Word} (h : classify p a = .nan ∨ classify p b = .nan) :
    mulWords p a b = qnan p := if_pos h

theorem mulWords_of_inf_zero {p : Params} {a b : Word} (ha : classify p a = .inf) (hb : classify p b = .zero) :
    mulWords p a b = qnan p := by
  simp [mulWords, ha, hb]

theorem mulWords_of_inf {p : Params} {a b : Word} (ha : classify p a = .inf) (hnan : classify p b ≠ .nan)
    (hzero : classify p b ≠ .zero) : mulWords p a b = infWord p (signOf a ^^ signOf b) := by
  simp [mulWords, ha, hnan, hzero]

/-- Settles O37: the checks with the infinity as first operand, and the others by commutativity. -/
theorem mulSpecialOperands : Obligations.MulSpecialOperands := by
  intro s a b h
  rw [execMul_completes h]
  refine ⟨fun hnan => ?_, fun hinfzero => ?_, fun ha hnan hzero => ?_, fun hb hnan hzero => ?_⟩
  · rw [mulWords_of_nan hnan]
  · obtain ⟨ha, hb⟩ | ⟨ha, hb⟩ := hinfzero
    · rw [mulWords_of_inf_zero ha hb]
    · rw [mulWords_comm, mulWords_of_inf_zero hb ha]
  · rw [mulWords_of_inf ha hnan hzero]
  · rw [mulWords_comm, mulWords_of_inf hb hnan hzero, Bool.xor_comm]

/-! ### Finite operands (44_multiplier.md R182 to R185) -/

/-- Settles O38: the two early checks on the exponent, and between them the rescaled product, which has at most 17 digits. -/
theorem mulFiniteProduct : Obligations.MulFiniteProduct := by
  intro s a b h ha hb
  rw [execMul_completes h, mulWords_finite ha hb]
  refine ⟨_, rfl, mulTriples_underflow, mulTriples_overflow, fun hfloor hceil => ?_⟩
  rw [mulTriples_inRange hfloor hceil]
  exact finishResult_roundsTo h.1 _ (product_lt (dec_S_lt_of_finite ha) (dec_S_lt_of_finite hb))

/-! ### Multiplying by 1 (44_multiplier.md R186) -/

theorem dec_one : dec 0x4000000000000000#64 = ⟨false, 512, 10 ^ 15⟩ := by decide

/-- The ceiling lies above the exponent 512 of 1 (00_scope.md R7). -/
theorem eMax_ge {p : Params} (hp : admitted p = true) : 1022 ≤ eMax p := by
  obtain ⟨-, -, h⟩ | ⟨-, -, -, h⟩ := infField_bounds hp <;> omega

theorem finite_of_normal {p : Params} {w : Word} (h : classify p w = .normal) : finite p w = true := by
  simp [finite, h]

theorem finite_one {p : Params} (hp : admitted p = true) : finite p 0x4000000000000000#64 = true := by
  have hmax := eMax_ge hp
  have hE : (expField 0x4000000000000000#64).toNat = 512 := by decide
  exact finite_of_normal (classify_of_normal_fields hp (by omega) (by omega) (by decide))

/-- S x 10^15 div 10^15 is S again, at the exponent E + 512 - 512 (44_multiplier.md R186). -/
theorem mulWords_one {p : Params} (hp : admitted p = true) {x : Word} (hx : finite p x = true) (hE : (dec x).E ≤ eMax p) :
    mulWords p x 0x4000000000000000#64 = finishResult p (signOf x) ⟨(dec x).E, (dec x).S⟩ := by
  have hsign : (signOf x ^^ signOf 0x4000000000000000#64) = signOf x := Bool.xor_false _
  rw [mulWords_finite hx (finite_one hp), hsign, dec_one, mulTriples_inRange (Nat.le_add_left _ _) (by dsimp only; omega)]
  dsimp only
  rw [Nat.add_sub_cancel, Nat.mul_div_cancel _ (by decide)]

/-- Settles O40: the product with 1 is x's own triple, whose encoding is x or its flushed zero. -/
theorem mulByOneIsIdentity : Obligations.MulByOneIsIdentity := by
  intro s x h
  rw [execMul_completes h]
  refine ⟨fun hn => ?_, fun hsub => ?_⟩
  · obtain ⟨-, hE, -⟩ := (classify_eq_normal_iff h.1 x).1 hn
    rw [mulWords_one h.1 (finite_of_normal hn) hE, finishResult_dec_normal h.1 hn]
  · obtain ⟨hE, -⟩ := (classify_eq_subnormal_iff h.1 x).1 hsub
    rw [mulWords_one h.1 (by simp [finite, hsub]) (hE.trans_le (Nat.zero_le _)), finishResult_dec_subnormal h.1 hsub]

/-! ### The overflow boundary (44_multiplier.md R186) -/

/-- The largest finite word is +9.999999999999999 at E_MAX. -/
theorem largest_finite {p : Params} (hp : admitted p = true) {m : Word}
    (hm : m.toNat = eMax p * 2 ^ 53 + (9 * 10 ^ 15 - 1)) :
    finite p m = true ∧ dec m = ⟨false, eMax p, 10 ^ 16 - 1⟩ := by
  have hmax := eMax_ge hp
  obtain ⟨hs, hE, hF⟩ := fields_of_toNat (w := m) (s := false) (eMax_lt hp) (by decide : 9 * 10 ^ 15 - 1 < 2 ^ 53)
    (by simpa [signWeight] using hm)
  have hE0 : eMax p ≠ 0 := by omega
  refine ⟨finite_of_normal (classify_of_normal_fields hp (by omega) hE.le hF.le), ?_⟩
  simp [dec, hs, hE, hF, hE0, N15]

/-- The magnitude of a value, with R57's scale in one exponent: the last digit of 1 weighs 10^(512 - 527). -/
theorem abs_value_eq (w : Word) : |value w| = ((dec w).S : ℚ) * 10 ^ (((dec w).E : Int) - 527) := by
  rw [abs_value, sub_sub, show (BIAS : Int) + 15 = 527 from rfl]

/-- Below exponent 512 the 16 digits of a finite significand make no more than 1 (30_encoding.md R57). -/
theorem abs_value_le_one {p : Params} {y : Word} (hy : finite p y = true) (hE : (dec y).E < 512) : |value y| ≤ 1 := by
  have hS : ((dec y).S : ℚ) ≤ 10 ^ 16 := by exact_mod_cast (dec_S_lt_of_finite hy).le
  have hpow : (10 : ℚ) ^ (((dec y).E : Int) - 527) ≤ 10 ^ (-16 : Int) := zpow_le_zpow_right₀ (by norm_num) (by omega)
  calc |value y| = ((dec y).S : ℚ) * 10 ^ (((dec y).E : Int) - 527) := abs_value_eq y
    _ ≤ 10 ^ 16 * 10 ^ (-16 : Int) := mul_le_mul hS hpow (by positivity) (by positivity)
    _ = 1 := by norm_num

/-- A finite word of magnitude above 1 has exponent 512 or more, and at 512 a significand above that of 1 (30_encoding.md R57). -/
theorem dec_of_one_lt_abs_value {p : Params} {y : Word} (hy : finite p y = true) (h : 1 < |value y|) :
    512 < (dec y).E ∨ (dec y).E = 512 ∧ 10 ^ 15 < (dec y).S := by
  obtain hlt | heq | hgt := Nat.lt_trichotomy (dec y).E 512
  · exact absurd h (abs_value_le_one hy hlt).not_gt
  · refine .inr ⟨heq, ?_⟩
    have hS : (1 : ℚ) < (dec y).S / 10 ^ 15 := by
      rw [abs_value_eq, heq] at h
      norm_num at h ⊢
      linarith
    exact_mod_cast (one_lt_div (by positivity)).1 hS
  · exact .inl hgt

/-- A result of 17 digits is carried out to 16, which need no renormalization (44_multiplier.md R184). -/
theorem finishResult_of_carry (p : Params) (s : Bool) (e : Nat) {R : Nat} (h : 10 ^ 16 ≤ R) :
    finishResult p s ⟨e, R⟩ = packResult p s ⟨e + 1, R / 10⟩ := by
  have hR : 10 ^ 15 ≤ R / 10 := by omega
  rw [finishResult, carryOut_of_ge h, renormUp_of_ge _ hR]

/-- Settles O41: the exponent passes the ceiling at once, or by the carry of a product of at least
(10^16 - 1) x (10^15 + 1) div 10^15. -/
theorem mulOverflowBoundary : Obligations.MulOverflowBoundary := by
  intro s m y h hm hy habove
  obtain ⟨hfin, hdec⟩ := largest_finite h.1 hm
  have hsign : (signOf m ^^ signOf y) = signOf y := by
    rw [show signOf m = false from congrArg Triple.sign hdec, Bool.false_xor]
  rw [execMul_completes h, mulWords_finite hfin hy, hsign, hdec]
  obtain hE | ⟨hE, hS⟩ := dec_of_one_lt_abs_value hy habove
  · rw [mulTriples_overflow (by dsimp only; omega)]
  · rw [mulTriples_inRange (by dsimp only; omega) (by dsimp only; omega)]
    dsimp only
    rw [hE, Nat.add_sub_cancel, finishResult_of_carry _ _ _ (by omega), packResult_of_overflow _ _ (Nat.lt_succ_self _)]

/-! ### Truncation (44_multiplier.md R183, R184) -/

/-- A result of 16 or 17 digits loses its last digits by one division (44_multiplier.md R184). -/
theorem finishResult_of_ge (p : Params) (s : Bool) (e : Nat) {R : Nat} (h1 : 10 ^ 15 ≤ R) (h2 : R < 10 ^ 17) :
    ∃ k, 10 ^ 15 ≤ R / 10 ^ k ∧ R / 10 ^ k < 10 ^ 16 ∧ finishResult p s ⟨e, R⟩ = packResult p s ⟨e + k, R / 10 ^ k⟩ := by
  obtain hlt | hge := Nat.lt_or_ge R (10 ^ 16)
  · exact ⟨0, by omega, by omega, by rw [finishResult_of_normal p s e h1 hlt, pow_zero, Nat.div_one, Nat.add_zero]⟩
  · exact ⟨1, by omega, by omega, by rw [finishResult_of_carry p s e hge, pow_one]⟩

/-- The triple of a normal result is the one that PACK_RESULT was given (40_bit_codec.md R104). -/
theorem dec_packResult_of_classify_normal {p : Params} (hp : admitted p = true) {s : Bool} {E R : Nat} (h1 : 10 ^ 15 ≤ R)
    (h2 : R < 10 ^ 16) (h : classify p (packResult p s ⟨E, R⟩) = .normal) : dec (packResult p s ⟨E, R⟩) = ⟨s, E, R⟩ := by
  obtain rfl | hE := Nat.eq_zero_or_pos E
  · cases hon : p.subnormals with
    | false => simp [packResult_of_zero_or_flush s (.inr hon), classify_zeroWord] at h
    | true =>
      rw [packResult_of_subnormal s (by omega) hon, classify_packFields_subnormal p s (by omega) (by omega)] at h
      cases h
  · obtain hover | hmax := Nat.lt_or_ge (eMax p) E
    · simp [packResult_of_overflow s R hover, classify_infWord hp] at h
    · rw [packResult_of_normal s hE hmax h1 h2]
      exact dec_packTriple_normal s hE.ne' (hmax.trans_lt (eMax_lt hp)) h1 h2

/-- A normal product of normal operands: k is 1 where the product was carried out, and 0 elsewhere. -/
theorem dec_mulWords_of_normal {p : Params} (hp : admitted p = true) {a b : Word} (ha : classify p a = .normal)
    (hb : classify p b = .normal) (h : classify p (mulWords p a b) = .normal) :
    512 ≤ (dec a).E + (dec b).E ∧ ∃ k, dec (mulWords p a b) =
      ⟨signOf a ^^ signOf b, (dec a).E + (dec b).E - 512 + k, (dec a).S * (dec b).S / 10 ^ (15 + k)⟩ := by
  obtain ⟨ha1, ha2⟩ := dec_S_bounds_of_normal hp ha
  obtain ⟨hb1, hb2⟩ := dec_S_bounds_of_normal hp hb
  rw [mulWords_finite (finite_of_normal ha) (finite_of_normal hb)] at h ⊢
  obtain hunder | hfloor := Nat.lt_or_ge ((dec a).E + (dec b).E) 512
  · simp [mulTriples_underflow hunder, classify_zeroWord] at h
  obtain hover | hceil := Nat.lt_or_ge (512 + eMax p) ((dec a).E + (dec b).E)
  · simp [mulTriples_overflow hover, classify_infWord hp] at h
  have hP1 : 10 ^ 15 ≤ (dec a).S * (dec b).S / 10 ^ 15 :=
    (Nat.le_div_iff_mul_le (by decide)).2 (Nat.mul_le_mul ha1 hb1)
  obtain ⟨k, hk1, hk2, hfinish⟩ := finishResult_of_ge p (signOf a ^^ signOf b) ((dec a).E + (dec b).E - 512) hP1
    (product_lt ha2 hb2)
  rw [mulTriples_inRange hfloor hceil, hfinish] at h ⊢
  refine ⟨hfloor, k, ?_⟩
  rw [dec_packResult_of_classify_normal hp hk1 hk2 h, Nat.div_div_eq_div_mul, ← pow_add]

/-- The exact product at the exponent of the result (30_encoding.md R57). -/
theorem abs_value_mul_value {a b : Word} (h : 512 ≤ (dec a).E + (dec b).E) (k : Nat) :
    |value a * value b| = ((dec a).S * (dec b).S : Nat) / (10 ^ (15 + k) : Nat) *
      (10 : ℚ) ^ (((dec a).E + (dec b).E - 512 + k : Nat) - 527 : Int) := by
  have hexp : (((dec a).E : Int) - 527) + (((dec b).E : Int) - 527) =
      (((dec a).E + (dec b).E - 512 + k : Nat) - 527 : Int) - (15 + k : Nat) := by omega
  calc |value a * value b|
      = ((dec a).S * (dec b).S) * ((10 : ℚ) ^ (((dec a).E : Int) - 527) * 10 ^ (((dec b).E : Int) - 527)) := by
        rw [abs_mul, abs_value_eq, abs_value_eq, mul_mul_mul_comm]
    _ = _ := by
        rw [← zpow_add₀ (by norm_num), hexp, zpow_sub₀ (by norm_num), zpow_natCast, Nat.cast_mul, Nat.cast_pow, Nat.cast_ofNat]
        ring

/-- A division that truncates loses less than 1. -/
theorem lt_div_add_one (n d : Nat) : (n : ℚ) / d < (n / d : Nat) + 1 := by
  rw [← Nat.floor_div_eq_div (K := ℚ)]
  exact Nat.lt_floor_add_one _

/-- Settles O42: the exact product and the result stand at one exponent, where a division truncates the exact significand. -/
theorem mulTruncatesExactProduct : Obligations.MulTruncatesExactProduct := by
  intro s a b h ha hb
  refine ⟨_, execMul_completes h, fun hy => ?_⟩
  obtain ⟨hfloor, k, hdec⟩ := dec_mulWords_of_normal h.1 ha hb hy
  have hulp : (0 : ℚ) < 10 ^ (((dec a).E + (dec b).E - 512 + k : Nat) - 527 : Int) := by positivity
  rw [abs_value_mul_value hfloor k, abs_value_eq, hdec, ← add_one_mul]
  exact ⟨congrArg Triple.sign hdec, mul_le_mul_of_nonneg_right Nat.cast_div_le hulp.le,
    mul_lt_mul_of_pos_right (lt_div_add_one _ _) hulp⟩

end Sys2Proof.Machine
end

section
/-! PROOFS of the divider's statements: DIV's special operands (45_divider.md R196), the downward loop and its end within 31 steps
(R199, R202), the finite quotients (R197 to R201), the laws of DIV (R203), and the exact quotient behind a normal result (R198,
30_encoding.md R57). -/

namespace Sys2Proof.Machine

/-! ### The transaction -/

theorem execDiv_completes {s : State} {a b : Word} (h : PresentsAB s a b) :
    exec .div s = .next (s.yields (divWords s.params a b)) :=
  onAB_completes h

/-! ### Special operands (45_divider.md R196) -/

theorem divWords_of_nan {p : Params} {a b : Word} (h : classify p a = .nan ∨ classify p b = .nan) :
    divWords p a b = qnan p := if_pos h

/-- A zero divisor gives QNAN whatever the dividend, a NaN included. -/
theorem divWords_of_zero_divisor (p : Params) (a : Word) {b : Word} (h : classify p b = .zero) :
    divWords p a b = qnan p := by
  by_cases hnan : classify p a = .nan
  · exact divWords_of_nan (.inl hnan)
  · simp [divWords, hnan, h]

theorem divWords_of_inf_inf {p : Params} {a b : Word} (ha : classify p a = .inf) (hb : classify p b = .inf) :
    divWords p a b = qnan p := by
  simp [divWords, ha, hb]

theorem divWords_of_inf_finite {p : Params} {a b : Word} (ha : classify p a = .inf) (hb : finite p b = true)
    (h0 : classify p b ≠ .zero) : divWords p a b = infWord p (signOf a ^^ signOf b) := by
  simp [divWords, ha, finite_not_special hb, h0]

theorem divWords_of_finite_inf {p : Params} {a b : Word} (ha : finite p a = true) (hb : classify p b = .inf) :
    divWords p a b = zeroWord (signOf a ^^ signOf b) := by
  simp [divWords, hb, finite_not_special ha]

/-- Settles O43: the five checks of R196, each by its own lemma. -/
theorem divSpecialOperands : Obligations.DivSpecialOperands := by
  intro s a b h
  rw [execDiv_completes h]
  refine ⟨fun hnan => ?_, fun hzero => ?_, fun ha hb => ?_, fun ha hb h0 => ?_, fun ha hb => ?_⟩
  · rw [divWords_of_nan hnan]
  · rw [divWords_of_zero_divisor _ a hzero]
  · rw [divWords_of_inf_inf ha hb]
  · rw [divWords_of_inf_finite ha hb h0]
  · rw [divWords_of_finite_inf ha hb]

/-! ### The downward loop, counted in steps (45_divider.md R199, R202) -/

/-- k is the least number of downward steps after which the quotient has at most 16 digits and the exponent is not below the
floor: the loop's condition without its two exits (45_divider.md R199). -/
def ScalesDown (Q : Nat) (e : Int) (k : Nat) : Prop :=
  (Q / 10 ^ k < 10 ^ 16 ∧ 0 ≤ e + k) ∧ ∀ j < k, 10 ^ 16 ≤ Q / 10 ^ j ∨ e + (j : Int) < 0

theorem exists_scalesDown (Q : Nat) (e : Int) : ∃ k, ScalesDown Q e k := by
  have hex : ∃ m : Nat, Q / 10 ^ m < 10 ^ 16 ∧ 0 ≤ e + (m : Int) := by
    have hQ : Q < 10 ^ (Q + e.natAbs) :=
      (Nat.lt_pow_self (by decide)).trans_le (Nat.pow_le_pow_right (by decide) (Nat.le_add_right _ _))
    refine ⟨Q + e.natAbs, ?_, by omega⟩
    rw [Nat.div_eq_of_lt hQ]
    decide
  refine ⟨Nat.find hex, Nat.find_spec hex, fun j hj => ?_⟩
  have hmin := Nat.find_min hex hj
  omega

theorem div_ten_pow_succ (Q k : Nat) : Q / 10 ^ (k + 1) = Q / 10 / 10 ^ k := by
  rw [pow_succ', Nat.div_div_eq_div_mul]

theorem scalesDown_zero_iff (Q : Nat) (e : Int) : ScalesDown Q e 0 ↔ Q < 10 ^ 16 ∧ 0 ≤ e := by
  simp [ScalesDown]

/-- One step leaves one step less to count. -/
theorem ScalesDown.step {Q k : Nat} {e : Int} (h : ScalesDown Q e (k + 1)) :
    (10 ^ 16 ≤ Q ∨ e < 0) ∧ ScalesDown (Q / 10) (e + 1) k := by
  obtain ⟨⟨hfit, hfloor⟩, hmin⟩ := h
  refine ⟨by simpa using hmin 0 k.succ_pos, ⟨div_ten_pow_succ Q k ▸ hfit, by omega⟩, fun j hj => ?_⟩
  have hj' := hmin (j + 1) (Nat.succ_lt_succ hj)
  rw [div_ten_pow_succ] at hj'
  omega

/-- At or above the floor only a quotient of 17 digits steps, which leaves at least 16 of them: the two exits never meet
(45_divider.md R199). -/
theorem ScalesDown.ne_zero_of_nonneg {Q k : Nat} {e : Int} (h : ScalesDown Q e (k + 1)) (he : 0 ≤ e) :
    Q / 10 ^ (k + 1) ≠ 0 := by
  have hlast := h.2 k k.lt_succ_self
  rw [pow_succ, ← Nat.div_div_eq_div_mul]
  omega

/-- How the downward loop ends after k steps: a step taken can leave nothing or pass the ceiling (45_divider.md R199). -/
def downEnd (p : Params) (Q : Nat) (e : Int) (k : Nat) : Quotient :=
  if 0 < k ∧ Q / 10 ^ k = 0 then .zeroExit
  else if 0 < k ∧ e + k > eMax p then .overflowExit
  else .fits ⟨(e + k).toNat, Q / 10 ^ k⟩

theorem downEnd_zeroExit (p : Params) {Q k : Nat} (e : Int) (hk : 0 < k) (h0 : Q / 10 ^ k = 0) :
    downEnd p Q e k = .zeroExit := if_pos ⟨hk, h0⟩

theorem downEnd_overflowExit {p : Params} {Q k : Nat} {e : Int} (hk : 0 < k) (h0 : Q / 10 ^ k ≠ 0) (hmax : e + k > eMax p) :
    downEnd p Q e k = .overflowExit := by
  rw [downEnd, if_neg (fun h => h0 h.2), if_pos ⟨hk, hmax⟩]

theorem downEnd_fits {p : Params} {Q k : Nat} {e : Int} (h : k = 0 ∨ (Q / 10 ^ k ≠ 0 ∧ e + k ≤ eMax p)) :
    downEnd p Q e k = .fits ⟨(e + k).toNat, Q / 10 ^ k⟩ := by
  rw [downEnd, if_neg (by omega), if_neg (by omega)]

/-- A step that takes neither exit leaves the end to the steps after it. -/
theorem downEnd_succ {p : Params} {Q : Nat} {e : Int} (k : Nat) (h0 : Q / 10 ≠ 0) (hmax : e + 1 ≤ eMax p) :
    downEnd p Q e (k + 1) = downEnd p (Q / 10) (e + 1) k := by
  have hdiv := div_ten_pow_succ Q k
  have hexp : e + (k + 1 : Nat) = e + 1 + k := by omega
  obtain rfl | hk := Nat.eq_zero_or_pos k
  · rw [downEnd_fits (.inl rfl), downEnd_fits (.inr ⟨by simpa using h0, by simpa using hmax⟩), hdiv, hexp]
  · simp only [downEnd, hdiv, hexp, hk, k.succ_pos]

/-- The loop ends as its step count says: a quotient below 10^n runs out of digits before the bound n on the steps is used up
(45_divider.md R202). -/
theorem divDown_eq_downEnd (p : Params) {n Q k : Nat} {e : Int} (hn : 0 < n) (hQ : Q < 10 ^ n) (h : ScalesDown Q e k) :
    divDown p n Q e = downEnd p Q e k := by
  induction n generalizing Q e k with
  | zero => exact absurd hn (lt_irrefl 0)
  | succ n ih =>
    cases k with
    | zero =>
      obtain ⟨hfit, hfloor⟩ := (scalesDown_zero_iff Q e).1 h
      rw [divDown_stop p _ hfit hfloor, downEnd_fits (.inl rfl)]
      simp
    | succ k =>
      obtain ⟨hgo, hrest⟩ := h.step
      rw [divDown_step p n hgo]
      split_ifs with h0 hmax
      · refine (downEnd_zeroExit p e k.succ_pos ?_).symm
        rw [div_ten_pow_succ, h0, Nat.zero_div]
      · exact (downEnd_overflowExit k.succ_pos (h.ne_zero_of_nonneg (by omega)) (by omega)).symm
      · have hQ' : Q / 10 < 10 ^ n := Nat.div_lt_of_lt_mul (by rwa [← pow_succ'])
        have hn' : 0 < n := Nat.pos_of_ne_zero fun hn0 => h0 (by simpa [hn0] using hQ')
        rw [ih hn' hQ' hrest, downEnd_succ k h0 (not_lt.1 hmax)]

/-- Settles O45: with 31 steps or more the loop ends as its step count says, whatever the bound. -/
theorem divLoopEndsWithin31Steps : Obligations.DivLoopEndsWithin31Steps := by
  intro p Q extra e hQ
  obtain ⟨k, hk⟩ := exists_scalesDown Q e
  have hmore : Q < 10 ^ (31 + extra) := hQ.trans_le (Nat.pow_le_pow_right (by decide) (Nat.le_add_right _ _))
  exact ⟨(divDown_eq_downEnd p (by omega) hmore hk).trans (divDown_eq_downEnd p (by decide) hQ hk).symm,
    fun x => divDown_fits_R_lt hQ⟩

/-! ### Finite operands (45_divider.md R197 to R201) -/

/-- DIV of finite operands by its number of downward steps (45_divider.md R197 to R201). -/
theorem divWords_eq_quotientWord {p : Params} {a b : Word} (ha : finite p a = true) (hb : finite p b = true)
    (h0 : classify p b ≠ .zero) {k : Nat}
    (hk : ScalesDown ((dec a).S * 10 ^ 15 / (dec b).S) ((dec a).E - (dec b).E + 512) k) :
    divWords p a b = quotientWord p (signOf a ^^ signOf b)
      (downEnd p ((dec a).S * 10 ^ 15 / (dec b).S) ((dec a).E - (dec b).E + 512) k) := by
  have hQ := quotient_lt (dec_S_lt_of_finite ha) (dec b).S
  rw [divWords_finite ha hb h0, divTriples_eq_quotientWord]
  exact congrArg (quotientWord p _) (divDown_eq_downEnd p (by decide) hQ hk)

/-- The upward loop and the encoding in a row (45_divider.md R200, R201). -/
theorem packResult_renormUp_encodes {p : Params} (hp : admitted p = true) (s : Bool) (e : Nat) {R : Nat} (hR : R < 10 ^ 16) :
    ∃ e' R', ScalesUp e R e' R' ∧ EncodesResult p s e' R' (packResult p s (renormUp e R)) := by
  obtain ⟨hlt, hpre⟩ := renormUp_bounds (e := e) hR
  exact ⟨_, _, renormUp_scalesUp e R, packResult_encodes hp s hlt hpre⟩

/-- Settles O44: the three ends of the downward loop. -/
theorem divFiniteQuotient : Obligations.DivFiniteQuotient := by
  intro s a b h ha hb h0 Q e
  obtain ⟨k, hk⟩ := exists_scalesDown Q e
  refine ⟨_, k, execDiv_completes h, hk.1, hk.2, fun hpos hzero => ?_, fun hpos hzero hmax => ?_, fun hfits => ?_⟩ <;>
    rw [divWords_eq_quotientWord ha hb h0 hk]
  · rw [downEnd_zeroExit _ e hpos hzero, quotientWord]
  · rw [downEnd_overflowExit hpos hzero hmax, quotientWord]
  · rw [downEnd_fits hfits]
    exact packResult_renormUp_encodes h.1 _ _ hk.1.1

/-- A quotient of at most 16 digits at an exponent on or above the floor takes no downward step (45_divider.md R199). -/
theorem divWords_of_no_step {p : Params} {a b : Word} (ha : finite p a = true) (hb : finite p b = true)
    (h0 : classify p b ≠ .zero) {Q e : Nat} (hQ : (dec a).S * 10 ^ 15 / (dec b).S = Q) (hfit : Q < 10 ^ 16)
    (he : (dec a).E + 512 = (dec b).E + e) : divWords p a b = packResult p (signOf a ^^ signOf b) (renormUp e Q) := by
  have hexp : ((dec a).E : Int) - (dec b).E + 512 = e := by omega
  have hk : ScalesDown ((dec a).S * 10 ^ 15 / (dec b).S) ((dec a).E - (dec b).E + 512) 0 :=
    (scalesDown_zero_iff _ _).2 ⟨hQ ▸ hfit, by omega⟩
  rw [divWords_eq_quotientWord ha hb h0 hk, downEnd_fits (.inl rfl), hQ, hexp]
  simp [quotientWord]

/-! ### Dividing by itself and by 1 (45_divider.md R203) -/

/-- The significand of a divisor that passes R196's check is not 0. -/
theorem dec_S_pos {p : Params} (hp : admitted p = true) {w : Word} (h : classify p w ≠ .zero) : 0 < (dec w).S := by
  by_cases hE : (dec w).E = 0
  · rw [dec_S_of_E_eq_zero hE]
    exact Nat.pos_of_ne_zero fun hF => h ((classify_eq_zero_iff hp w).2 ⟨hE, hF⟩)
  · have hS := dec_S_ge hE
    omega

theorem packResult_one {p : Params} (hp : admitted p = true) :
    packResult p false ⟨512, 10 ^ 15⟩ = 0x4000000000000000#64 := by
  have hmax := eMax_ge hp
  rw [packResult_of_normal false (by decide) (by omega) le_rfl (by decide), ← dec_one, packTriple_dec]

/-- Settles O46: the quotient is 10^15 at exponent 512, the significand and the exponent of 1. -/
theorem divSelfIsOne : Obligations.DivSelfIsOne := by
  intro s x h hx h0
  have hQ : (dec x).S * 10 ^ 15 / (dec x).S = 10 ^ 15 := Nat.mul_div_cancel_left _ (dec_S_pos h.1 h0)
  rw [execDiv_completes h, divWords_of_no_step hx hx h0 hQ (by decide) rfl, Bool.xor_self, renormUp_of_ge _ le_rfl,
    packResult_one h.1]

theorem classify_one_ne_zero {p : Params} (hp : admitted p = true) : classify p 0x4000000000000000#64 ≠ .zero := by
  intro h
  have hE : (expField 0x4000000000000000#64).toNat = 0 := ((classify_eq_zero_iff hp _).1 h).1
  exact absurd hE (by decide)

/-- Settles O47: the quotient is x's own significand at x's own exponent. -/
theorem divByOneIsIdentity : Obligations.DivByOneIsIdentity := by
  intro s x h hx
  obtain ⟨h1, h2⟩ := dec_S_bounds_of_normal h.1 hx
  have hQ : (dec x).S * 10 ^ 15 / (dec 0x4000000000000000#64).S = (dec x).S := by
    rw [dec_one]
    exact Nat.mul_div_cancel _ (by decide)
  have hsign : (signOf x ^^ signOf 0x4000000000000000#64) = signOf x := Bool.xor_false _
  rw [execDiv_completes h, divWords_of_no_step (finite_of_normal hx) (finite_one h.1) (classify_one_ne_zero h.1) hQ h2
    (by rw [dec_one, Nat.add_comm]), hsign, renormUp_of_ge _ h1, ← finishResult_of_normal _ _ _ h1 h2,
    finishResult_dec_normal h.1 hx]

/-! ### Truncation (45_divider.md R198 to R200) -/

/-- The quotient of two significands of 16 digits has 15 or 16 digits, and 16 where the dividend's is not the smaller one
(45_divider.md R198). -/
theorem normal_quotient_bounds {m n : Nat} (hm1 : 10 ^ 15 ≤ m) (hm2 : m < 10 ^ 16) (hn1 : 10 ^ 15 ≤ n) (hn2 : n < 10 ^ 16) :
    10 ^ 14 ≤ m * 10 ^ 15 / n ∧ m * 10 ^ 15 / n < 10 ^ 16 ∧ (n ≤ m → 10 ^ 15 ≤ m * 10 ^ 15 / n) := by
  have hn : 0 < n := by omega
  exact ⟨(Nat.le_div_iff_mul_le hn).2 (by omega), Nat.div_lt_of_lt_mul (by omega),
    fun hle => (Nat.le_div_iff_mul_le hn).2 (by omega)⟩

/-- The upward loop appends at most one digit to a quotient of 15 digits, and none to one of 16 (45_divider.md R200). -/
theorem renormUp_of_fifteen_digits (e : Nat) {Q : Nat} (hQ : 10 ^ 14 ≤ Q) :
    ∃ j, j ≤ 1 ∧ j ≤ e ∧ (10 ^ 15 ≤ Q → j = 0) ∧ renormUp e Q = ⟨e - j, Q * 10 ^ j⟩ := by
  obtain ⟨j, hj, hE, hR, -, hmin⟩ := renormUp_scalesUp e Q
  refine ⟨j, not_lt.1 fun h2 => ?_, hj, fun h16 => Nat.eq_zero_of_not_pos fun hpos => ?_, by rw [← hE, ← hR]⟩
  · have hshort := hmin 1 h2
    omega
  · have hshort := hmin 0 hpos
    omega

/-- PACK_RESULT gives no normal word at exponent 0 (40_bit_codec.md R104). -/
theorem classify_packResult_expn_zero_ne_normal (p : Params) (s : Bool) (R : Nat) :
    classify p (packResult p s ⟨0, R⟩) ≠ .normal := by
  by_cases hzero : R = 0 ∨ p.subnormals = false
  · simp [packResult_of_zero_or_flush s hzero, classify_zeroWord]
  · obtain ⟨h0, hoff⟩ := not_or.1 hzero
    rw [packResult_of_subnormal s h0 (Bool.eq_true_of_not_eq_false hoff),
      classify_packFields_subnormal p s (by omega) (by omega)]
    decide

/-- A quotient of at most 16 digits below the floor steps up to exponent 0 and no further (45_divider.md R199). -/
theorem ScalesDown.add_eq_zero {Q k : Nat} {e : Int} (h : ScalesDown Q e k) (hQ : Q < 10 ^ 16) (he : e < 0) : e + k = 0 := by
  obtain ⟨⟨-, hfloor⟩, hmin⟩ := h
  have hlast := hmin (k - 1) (by omega)
  have hshort : Q / 10 ^ (k - 1) < 10 ^ 16 := (Nat.div_le_self _ _).trans_lt hQ
  omega

/-- Below the floor the quotient ends at exponent 0, where no word is normal (45_divider.md R199, R201). -/
theorem quotientWord_below_floor_ne_normal (p : Params) (s : Bool) {Q k : Nat} {e : Int} (h : ScalesDown Q e k)
    (hQ : Q < 10 ^ 16) (he : e < 0) : classify p (quotientWord p s (downEnd p Q e k)) ≠ .normal := by
  have hsum := h.add_eq_zero hQ he
  by_cases h0 : Q / 10 ^ k = 0
  · rw [downEnd_zeroExit p e (by omega) h0, quotientWord, classify_zeroWord]
    decide
  · rw [downEnd_fits (.inr ⟨h0, by omega⟩), hsum]
    exact classify_packResult_expn_zero_ne_normal p s _

/-- The triple of a normal quotient of normal operands: j is 1 where the upward loop appended a digit, and 0 elsewhere. -/
theorem dec_divWords_of_normal {p : Params} (hp : admitted p = true) {a b : Word} (ha : classify p a = .normal)
    (hb : classify p b = .normal) (h : classify p (divWords p a b) = .normal) :
    ∃ e j, (dec a).E + 512 = (dec b).E + e ∧ j ≤ 1 ∧ j ≤ e ∧ ((dec b).S ≤ (dec a).S → j = 0) ∧
      dec (divWords p a b) = ⟨signOf a ^^ signOf b, e - j, (dec a).S * 10 ^ 15 / (dec b).S * 10 ^ j⟩ := by
  obtain ⟨ha1, ha2⟩ := dec_S_bounds_of_normal hp ha
  obtain ⟨hb1, hb2⟩ := dec_S_bounds_of_normal hp hb
  obtain ⟨hQ1, hQ2, hQ16⟩ := normal_quotient_bounds ha1 ha2 hb1 hb2
  have h0 : classify p b ≠ .zero := by simp [hb]
  obtain hbelow | hfloor := Nat.lt_or_ge ((dec a).E + 512) (dec b).E
  · obtain ⟨k, hk⟩ := exists_scalesDown ((dec a).S * 10 ^ 15 / (dec b).S) ((dec a).E - (dec b).E + 512)
    rw [divWords_eq_quotientWord (finite_of_normal ha) (finite_of_normal hb) h0 hk] at h
    exact absurd h (quotientWord_below_floor_ne_normal p _ hk hQ2 (by omega))
  · obtain ⟨e, he⟩ := Nat.exists_eq_add_of_le hfloor
    obtain ⟨j, hj1, hje, hj0, hup⟩ := renormUp_of_fifteen_digits e hQ1
    obtain ⟨hR, hpre⟩ := hup ▸ renormUp_bounds (e := e) hQ2
    rw [divWords_of_no_step (finite_of_normal ha) (finite_of_normal hb) h0 rfl hQ2 he, hup] at h ⊢
    have habove : e - j ≠ 0 := fun hzero => classify_packResult_expn_zero_ne_normal p _ _ (hzero ▸ h)
    exact ⟨e, j, he, hj1, hje, fun hle => hj0 (hQ16 hle),
      dec_packResult_of_classify_normal hp (hpre.resolve_right habove) hR h⟩

/-- The exact quotient at the exponent of the scaled quotient (30_encoding.md R57). -/
theorem abs_value_div_value {a b : Word} {e : Nat} (he : (dec a).E + 512 = (dec b).E + e) :
    |value a / value b| = ((dec a).S * 10 ^ 15 : Nat) / ((dec b).S : Nat) * (10 : ℚ) ^ ((e : Int) - 527) := by
  have hexp : ((dec a).E : Int) - 527 = ((dec b).E - 527) + (15 + (e - 527)) := by omega
  rw [abs_div, abs_value_eq, abs_value_eq, hexp, zpow_add₀ (by norm_num), zpow_add₀ (by norm_num)]
  push_cast
  field_simp

/-- An appended digit 0 leaves the magnitude at the exponent before it (45_divider.md R200). -/
theorem abs_value_of_appended {y : Word} {s : Bool} {e j Q : Nat} (hdec : dec y = ⟨s, e - j, Q * 10 ^ j⟩) (hj : j ≤ e) :
    |value y| = (Q : ℚ) * 10 ^ ((e : Int) - 527) := by
  have hexp : (e : Int) - 527 = j + ((e - j : Nat) - 527) := by omega
  rw [abs_value_eq, hdec, hexp, zpow_add₀ (by norm_num), zpow_natCast, ← mul_assoc]
  push_cast
  rfl

/-- Settles O48: the exact quotient and the truncated one stand at one exponent, which is the result's or one above it. -/
theorem divTruncatesExactQuotient : Obligations.DivTruncatesExactQuotient := by
  intro s a b h ha hb
  refine ⟨_, execDiv_completes h, fun hy => ?_⟩
  obtain ⟨e, j, he, hj1, hje, hj0, hdec⟩ := dec_divWords_of_normal h.1 ha hb hy
  have hE : (dec (divWords s.params a b)).E = e - j := congrArg Triple.E hdec
  have hunit : (0 : ℚ) < 10 ^ ((e : Int) - 527) := by positivity
  have hbelow : |value a / value b| < |value (divWords s.params a b)| + 10 ^ ((e : Int) - 527) := by
    rw [abs_value_div_value he, abs_value_of_appended hdec hje, ← add_one_mul]
    exact mul_lt_mul_of_pos_right (lt_div_add_one _ _) hunit
  refine ⟨congrArg Triple.sign hdec, ?_, hbelow.trans_le ?_, fun hle => ?_⟩
  · rw [abs_value_div_value he, abs_value_of_appended hdec hje]
    exact mul_le_mul_of_nonneg_right Nat.cast_div_le hunit.le
  · exact add_le_add_right (zpow_le_zpow_right₀ (by norm_num) (by omega)) _
  · have hunits : (e : Int) = (dec (divWords s.params a b)).E := by rw [hE, hj0 hle, Nat.sub_zero]
    rwa [← hunits]

end Sys2Proof.Machine
end

section
/-! PROOFS of the statements on instances and ports: which instances run and by what name the others are refused
(70_reset_and_hazards.md R253), and what an undriven or an ignored port does (R259). -/

namespace Sys2Proof.Machine

/-! ### Instances -/

/-- The conditions that R253 sets, each met. -/
def MeetsConditions (p : Params) : Prop :=
  p.wordW = 64 ∧ p.expW = 10 ∧ p.sigW = 53 ∧ p.bias = 512 ∧ p.fieldSplit = .classic ∧
  (p.specials = .extended → 9 * 10 ^ 15 ≤ p.infSigExt ∧ p.infSigExt ≤ 2 ^ 53 - 2) ∧ 108 ≤ p.wideW

/-- The flaw found names a condition that the instance breaks. -/
theorem breaksCondition_of_instanceFlaw {p : Params} {flaw : InstanceFlaw} (h : instanceFlaw p = some flaw) :
    BreaksCondition p flaw := by
  unfold instanceFlaw at h
  split_ifs at h with h1 h2 h3 h4 h5 h6 h7 <;> cases h
  · exact h1
  · exact h2
  · exact h3
  · exact h4
  · exact h5
  · obtain ⟨hs, hi⟩ := h6
    exact ⟨hs, by omega⟩
  · exact h7

theorem meetsConditions_of_no_flaw {p : Params} (h : instanceFlaw p = none) : MeetsConditions p := by
  unfold instanceFlaw at h
  split_ifs at h with h1 h2 h3 h4 h5 h6 h7
  exact ⟨not_not.1 h1, not_not.1 h2, not_not.1 h3, not_not.1 h4, not_not.1 h5,
    fun hs => not_not.1 fun hi => h6 ⟨hs, hi⟩, not_lt.1 h7⟩

theorem MeetsConditions.not_breaksCondition {p : Params} (h : MeetsConditions p) (flaw : InstanceFlaw) :
    ¬ BreaksCondition p flaw := by
  intro hb
  obtain ⟨hword, hexp, hsig, hbias, hsplit, hinf, hwide⟩ := h
  cases flaw with
  | wordWidth => exact hb hword
  | exponentWidth => exact hb hexp
  | significandWidth => exact hb hsig
  | biasValue => exact hb hbias
  | fieldSplitShared => exact hb hsplit
  | infinityField =>
    obtain ⟨hs, hi⟩ := hb
    have hbounds := hinf hs
    omega
  | wideIntermediate => exact not_lt.2 hwide hb

theorem admitted_or_flaw (p : Params) : admitted p = true ∨ ∃ flaw, instanceFlaw p = some flaw := by
  rw [admitted_iff_no_flaw, ← Option.ne_none_iff_exists']
  exact em _

theorem admitted_iff_meetsConditions (p : Params) : admitted p = true ↔ MeetsConditions p := by
  refine ⟨fun h => meetsConditions_of_no_flaw ((admitted_iff_no_flaw p).1 h), fun h => ?_⟩
  obtain hp | ⟨flaw, hflaw⟩ := admitted_or_flaw p
  · exact hp
  · exact absurd (breaksCondition_of_instanceFlaw hflaw) (h.not_breaksCondition flaw)

theorem whenAdmitted_of_flaw {s : State} {flaw : InstanceFlaw} (h : instanceFlaw s.params = some flaw)
    (k : Host.Outcome State Fault Refusal) : whenAdmitted s k = .refused (.illegalInstance flaw) := by
  simp [whenAdmitted, h]

/-- Settles O6: the step and every operation check the instance first, so all of them name the first flaw found. -/
theorem onlyLegalInstancesRun : Obligations.OnlyLegalInstancesRun := by
  refine ⟨admitted_iff_meetsConditions, fun s hs => ?_⟩
  obtain ⟨flaw, hflaw⟩ := (admitted_or_flaw s.params).resolve_left (ne_true_of_eq_false hs)
  refine ⟨flaw, breaksCondition_of_instanceFlaw hflaw, whenAdmitted_of_flaw hflaw _, fun i => ?_⟩
  rw [← whenAdmitted_exec, whenAdmitted_of_flaw hflaw]

/-! ### Undriven ports -/

/-- The outcome is a next state, or a refusal that names one of `ports`, undriven in `inp` (70_reset_and_hazards.md R259). -/
def CompletesOrNamesUndriven (inp : Inputs) (ports : List InPort) (r : Host.Outcome State Fault Refusal) : Prop :=
  (∃ t, r = .next t) ∨ ∃ q ∈ ports, inp.driven q = false ∧ r = .refused (.undriven q)

theorem drive_completesOrNamesUndriven (inp : Inputs) (ports : List InPort) (s : State) (o : Outputs) :
    CompletesOrNamesUndriven inp ports (drive s o) := .inl ⟨_, rfl⟩

/-- Reading a port of the list adds no other way to stop. -/
theorem withPort_completesOrNamesUndriven {α : Type} {inp : Inputs} {ports : List InPort} {q : InPort} {v : Option α}
    {k : α → Host.Outcome State Fault Refusal} (hq : q ∈ ports) (hv : inp.driven q = v.isSome)
    (hk : ∀ x, CompletesOrNamesUndriven inp ports (k x)) : CompletesOrNamesUndriven inp ports (withPort q v k) := by
  cases v with
  | none => exact .inr ⟨q, hq, hv, rfl⟩
  | some x => exact hk x

theorem whenAdmitted_completesOrNamesUndriven {s : State} (hs : admitted s.params = true) {inp : Inputs}
    {ports : List InPort} {k : Host.Outcome State Fault Refusal} (hk : CompletesOrNamesUndriven inp ports k) :
    CompletesOrNamesUndriven inp ports (whenAdmitted s k) := by
  rwa [whenAdmitted_of_admitted hs]

theorem onA_completesOrNamesUndriven {s : State} (hs : admitted s.params = true) (f : Word → Outputs) :
    CompletesOrNamesUndriven s.inp [.a] (onA f s) :=
  whenAdmitted_completesOrNamesUndriven hs <|
    withPort_completesOrNamesUndriven (by decide) rfl fun _ => drive_completesOrNamesUndriven _ _ _ _

theorem onAB_completesOrNamesUndriven {s : State} (hs : admitted s.params = true) (f : Word → Word → Word) :
    CompletesOrNamesUndriven s.inp [.a, .b] (onAB f s) :=
  whenAdmitted_completesOrNamesUndriven hs <|
    withPort_completesOrNamesUndriven (by decide) rfl fun _ =>
    withPort_completesOrNamesUndriven (by decide) rfl fun _ => drive_completesOrNamesUndriven _ _ _ _

/-- On an admitted instance an operation stops only by naming an undriven operand port of its own (30_encoding.md R72). -/
theorem exec_completesOrNamesUndriven (i : Instr) {s : State} (hs : admitted s.params = true) :
    CompletesOrNamesUndriven s.inp (operandPorts i) (exec i s) := by
  cases i with
  | pack =>
    exact whenAdmitted_completesOrNamesUndriven hs <|
      withPort_completesOrNamesUndriven (by decide) rfl fun _ =>
      withPort_completesOrNamesUndriven (by decide) rfl fun _ =>
      withPort_completesOrNamesUndriven (by decide) rfl fun _ => drive_completesOrNamesUndriven _ _ _ _
  | unpack | decode | neg => exact onA_completesOrNamesUndriven hs _
  | shift =>
    exact whenAdmitted_completesOrNamesUndriven hs <|
      withPort_completesOrNamesUndriven (by decide) rfl fun _ =>
      withPort_completesOrNamesUndriven (by decide) rfl fun _ => drive_completesOrNamesUndriven _ _ _ _
  | add | sub | mul | div => exact onAB_completesOrNamesUndriven hs _
  | reserved9 | reservedAB | reservedCF =>
    exact whenAdmitted_completesOrNamesUndriven hs (drive_completesOrNamesUndriven _ _ _ _)

theorem readyFor_eq_false_of_undriven {i : Instr} {s : State} {q : InPort} (hq : q ∈ operandPorts i)
    (hu : s.inp.driven q = false) : readyFor i s = false := by
  have hall : (operandPorts i).all s.inp.driven = false := List.all_eq_false.2 ⟨q, hq, by simp [hu]⟩
  rw [readyFor, hall, Bool.and_false]

/-- An operation with an undriven operand port does not complete, so it names such a port. -/
theorem exec_names_undriven {i : Instr} {s : State} (hs : admitted s.params = true) {q : InPort} (hq : q ∈ operandPorts i)
    (hu : s.inp.driven q = false) :
    ∃ q ∈ operandPorts i, s.inp.driven q = false ∧ exec i s = .refused (.undriven q) := by
  obtain hnext | hnamed := exec_completesOrNamesUndriven i hs
  · have hready := (exec_completes_iff i s).1 hnext
    rw [readyFor_eq_false_of_undriven hq hu] at hready
    cases hready
  · exact hnamed

/-! ### Ignored ports -/

/-- The outputs that an outcome leaves, where it is a next state. -/
def outputsAfter (r : Host.Outcome State Fault Refusal) : Option (Option Outputs) := (nextState r).map State.out

theorem outputsAfter_whenAdmitted {s t : State} (hp : s.params = t.params) {k l : Host.Outcome State Fault Refusal}
    (h : outputsAfter k = outputsAfter l) : outputsAfter (whenAdmitted s k) = outputsAfter (whenAdmitted t l) := by
  unfold whenAdmitted
  rw [hp]
  cases instanceFlaw t.params with
  | none => exact h
  | some flaw => rfl

theorem outputsAfter_withPort {α : Type} (q : InPort) {v w : Option α} (hv : v = w)
    {k l : α → Host.Outcome State Fault Refusal} (h : ∀ x, outputsAfter (k x) = outputsAfter (l x)) :
    outputsAfter (withPort q v k) = outputsAfter (withPort q w l) := by
  subst hv
  cases v with
  | none => rfl
  | some x => exact h x

theorem outputsAfter_drive (s t : State) (o : Outputs) : outputsAfter (drive s o) = outputsAfter (drive t o) := rfl

theorem outputsAfter_onA (f : Word → Outputs) {s t : State} (hp : s.params = t.params) (ha : s.inp.a = t.inp.a) :
    outputsAfter (onA f s) = outputsAfter (onA f t) :=
  outputsAfter_whenAdmitted hp <| outputsAfter_withPort _ ha fun _ => outputsAfter_drive _ _ _

theorem outputsAfter_onAB (f : Word → Word → Word) {s t : State} (hp : s.params = t.params) (ha : s.inp.a = t.inp.a)
    (hb : s.inp.b = t.inp.b) : outputsAfter (onAB f s) = outputsAfter (onAB f t) :=
  outputsAfter_whenAdmitted hp <| outputsAfter_withPort _ ha fun _ => outputsAfter_withPort _ hb fun _ =>
    outputsAfter_drive _ _ _

/-- An operation's outputs rest on the parameters and on its own operand ports (30_encoding.md R72, 10_state.md R21). The second
state is written with the parameters of the first, so that both run one and the same function of the ports. -/
theorem outputsAfter_exec (i : Instr) (s : State) (y : Inputs) (o : Option Outputs)
    (h : ∀ q ∈ operandPorts i, s.inp.same y q = true) :
    outputsAfter (exec i s) = outputsAfter (exec i ⟨s.params, y, o⟩) := by
  cases i with
  | pack =>
    obtain ⟨hsign, hexp, hsig⟩ : s.inp.pSign = y.pSign ∧ s.inp.pExp = y.pExp ∧ s.inp.pSig = y.pSig := by
      simpa [operandPorts, Inputs.same] using h
    exact outputsAfter_whenAdmitted rfl <| outputsAfter_withPort _ hsign fun _ => outputsAfter_withPort _ hexp fun _ =>
      outputsAfter_withPort _ hsig fun _ => outputsAfter_drive _ _ _
  | unpack | decode | neg => exact outputsAfter_onA _ rfl (by simpa [operandPorts, Inputs.same] using h)
  | shift =>
    obtain ⟨ha, hn⟩ : s.inp.a = y.a ∧ s.inp.n = y.n := by simpa [operandPorts, Inputs.same] using h
    exact outputsAfter_whenAdmitted rfl <| outputsAfter_withPort _ ha fun _ => outputsAfter_withPort _ hn fun _ =>
      outputsAfter_drive _ _ _
  | add | sub | mul | div =>
    obtain ⟨ha, hb⟩ : s.inp.a = y.a ∧ s.inp.b = y.b := by simpa [operandPorts, Inputs.same] using h
    exact outputsAfter_onAB _ rfl ha hb
  | reserved9 | reservedAB | reservedCF => exact outputsAfter_whenAdmitted rfl (outputsAfter_drive _ _ _)

/-- Settles O7: an operation stops only at an undriven port of its own, and answers for no other port. -/
theorem undrivenPortsRefusedByName : Obligations.UndrivenPortsRefusedByName := by
  refine ⟨fun s hs => ⟨step_of_op_undriven hs, fun i ⟨q, hq, hu⟩ => exec_names_undriven hs hq hu⟩, ?_⟩
  intro i s t hp hsame
  have h := outputsAfter_exec i s t.inp t.out hsame
  rwa [hp] at h

end Sys2Proof.Machine
end

section
/-! PROOFS of the statements on the outputs at every instant (70_reset_and_hazards.md R250, 10_state.md R21, R32) and behind
a clocked wrapper (70_reset_and_hazards.md R258). -/

namespace Sys2Proof.Machine

/-! ### The outputs follow the inputs -/

theorem settled_outputsFollow (s : State) : OutputsFollow s.settled := rfl

theorem settled_of_outputsFollow {s : State} (h : OutputsFollow s) : s.settled = s := by
  unfold State.settled
  rw [← h]

/-- A step ends in the settled state: it drives the outputs for the current inputs and changes nothing else. -/
theorem eq_settled_of_step {s t : State} (h : step s = .next t) : t = s.settled := by
  obtain ⟨o, ho, rfl⟩ := transaction_next h
  rw [State.settled, ho]

theorem step_outputsFollow {s t : State} (h : step s = .next t) : OutputsFollow t :=
  eq_settled_of_step h ▸ settled_outputsFollow s

/-- Settles O57: a presentation, a command and a reset input settle the block, and a step, from reset too, ends settled. -/
theorem outputsFollowInputs : Obligations.OutputsFollowInputs :=
  ⟨fun _ _ => settled_outputsFollow _, fun _ _ _ => settled_outputsFollow _,
    fun s => ⟨settled_outputsFollow s, resetInput_params s, resetInput_inp s⟩, fun _ => settled_of_outputsFollow,
    fun _ _ => step_outputsFollow, step_outputsFollow step_reset⟩

/-! ### No value of an earlier transaction appears -/

theorem step_of_ready {s : State} (h : ready s = true) : step s = .next s.settled := by
  obtain ⟨t, ht⟩ := (step_completes_iff_ready s).2 h
  rw [ht, eq_settled_of_step ht]

/-- What does not step has no next state. -/
theorem nextState_step_of_not_ready {s : State} (h : ready s = false) : nextState (step s) = none := by
  cases hstep : step s with
  | next t =>
    have hready := (step_completes_iff_ready s).1 ⟨t, hstep⟩
    rw [h] at hready
    cases hready
  | fault | refused => rfl

theorem outputsFor_of_ready {s : State} (h : ready s = true) : ∃ o, outputsFor s.params s.inp = some o := by
  obtain ⟨o, ho, -⟩ := transaction_next (step_of_ready h)
  exact ⟨o, ho⟩

/-- The outputs for the current inputs are unspecified exactly where the transaction is refused (entry 1). -/
theorem outputsFor_eq_none_iff (s : State) : outputsFor s.params s.inp = none ↔ ready s = false := by
  cases hr : ready s with
  | true =>
    obtain ⟨o, ho⟩ := outputsFor_of_ready hr
    simp [ho]
  | false =>
    have hnone : (nextState (transaction s)).bind State.out = none := by
      rw [show nextState (transaction s) = none from nextState_step_of_not_ready hr, Option.bind_none]
    simp [outputsFor_eq, hnone]

/-- What a settled block shows rests on its parameters and inputs alone (10_state.md R21). -/
theorem settled_eq_of_params_inp {s t : State} (hp : s.params = t.params) (hi : s.inp = t.inp) : s.settled = t.settled := by
  unfold State.settled
  rw [hp, hi]

/-- Settles O58: presented inputs stand settled, and a step of a ready transaction ends settled. -/
theorem noEarlierValueAppears : Obligations.NoEarlierValueAppears := by
  refine ⟨fun s inp hready => ?_, fun s inp => outputsFor_eq_none_iff (s.present inp),
    fun s t inp hp => settled_eq_of_params_inp hp rfl, fun s t => settled_eq_of_params_inp⟩
  have hfollow : OutputsFollow (s.present inp) := settled_outputsFollow _
  rw [step_of_ready hready, settled_of_outputsFollow hfollow]

/-! ### Behind a clocked wrapper -/

/-- Settles O56: once LATENCY has elapsed, the wrapper shows what the step of the ready transaction drives. -/
theorem wrapperOutputsAfterLatency : Obligations.WrapperOutputsAfterLatency := by
  intro latency elapsed s hready
  refine ⟨fun hlt => if_pos hlt, fun hle => ?_⟩
  obtain ⟨o, ho⟩ := outputsFor_of_ready hready
  have hstep := step_of_ready hready
  refine ⟨s.settled, hstep, o, ho, ?_⟩
  rw [wrapperOutputs, if_neg (not_lt.2 hle), hstep]
  exact ho

end Sys2Proof.Machine
end
